-- ==== Sys2Proof/Config.lean ====
section
/-! DEFINITION. The implementation parameters of 00_scope.md R6 that have a stated value.
The two OPEN ones are arguments instead: REG_INIT of `Sys2Proof.Machine.boot` (log 2) and OUT_DEC_FORMAT of
`Sys2Proof.Machine.renderOutput` (log 17). NEG_ADDR_POLICY is `illegal` and is built into `State.memRead` and
`State.memWrite` (20_memory.md R62). WORD_BITS and ADDR_BITS are the widths of `Word` and `Addr`. -/

namespace Sys2Proof.Config

/-- WORD_BITS (R6). -/
@[simp] abbrev wordBits : Nat := 20

/-- MEM_WORDS: the legal addresses are 0 to 255 (R6, 20_memory.md R61). -/
@[simp] abbrev memWords : Nat := 256

/-- SHIFT_MAX: the legal shift amounts are 0..19 (R6, 40_alu.md R127). -/
@[simp] abbrev shiftMax : Nat := 19

/-- INSTR_LIMIT (R6, 41_cycle.md R171). -/
@[simp] abbrev instrLimit : Nat := 200

/-- RESERVED_MASK: bits 11..8 of an instruction Word (R6, 30_encoding.md R91). -/
@[simp] abbrev reservedMask : BitVec 20 := 0x00F00#20

/-- SEPARATORS, first range: byte codes 0 to this (R6, 45_io.md R261). -/
@[simp] abbrev separatorLowMax : Nat := 32

/-- SEPARATORS, second range: its first byte code (R6, 45_io.md R261). -/
@[simp] abbrev separatorHighMin : Nat := 127

/-- SEPARATORS, second range: its last byte code (R6, 45_io.md R261). -/
@[simp] abbrev separatorHighMax : Nat := 160

end Sys2Proof.Config
end

