-- ==== Sys2Proof/Word.lean ====
section
/-! DEFINITION. The three widths of the machine: Word, Address and byte (00_scope.md R6, R7, R13). -/

namespace Sys2Proof

/-- The machine's native 20-bit two's-complement Word (R13, R120). Bit 0 is the least significant (R7). -/
abbrev Word := BitVec 20

/-- An 8-bit unsigned index into memory, also the type of the PC (R13, R37). -/
abbrev Addr := BitVec 8

/-- One character of the I/O channel, a byte 0..255 (R22, R23). -/
abbrev Byte := BitVec 8

end Sys2Proof
end

