-- ==== Sys2Proof/Syntax.lean ====
section
/-! DEFINITION. The instructions: one constructor per operation of spec/opcode_table.json (41_cycle.md R175). -/

namespace Sys2Proof

/-- The four general registers, as an r-index or an x-index names them (10_state.md R31). -/
inductive Reg where
  | r0 | r1 | r2 | r3
deriving DecidableEq, Repr

/-- What the x-index of BR r=0 selects to be dumped before the halt (46_control.md R290). -/
inductive Verbosity where
  /-- x = 0. -/
  | none
  /-- x = 1. -/
  | memory
  /-- x = 2. -/
  | registers
  /-- x = 3. -/
  | both
deriving DecidableEq, Repr

/-- A decoded instruction. `r` is the r-index, `x` the x-index and `k` the s-field (00_scope.md R12).
Fields an operation ignores are kept, so that the encoding is a bijection (30_encoding.md R97; log 13). -/
inductive Instr where
  /-- LD (42_load_store.md R200). -/
  | ld (r x : Reg) (k : Addr)
  /-- LDI (R201). -/
  | ldi (r x : Reg) (k : Addr)
  /-- ST (R202). -/
  | st (r x : Reg) (k : Addr)
  /-- ADD (43_arith_logic.md R220). -/
  | add (r x : Reg) (k : Addr)
  /-- SUB (R221). -/
  | sub (r x : Reg) (k : Addr)
  /-- MUL (R222). -/
  | mul (r x : Reg) (k : Addr)
  /-- DIV (R223). -/
  | div (r x : Reg) (k : Addr)
  /-- OR (R224). -/
  | bor (r x : Reg) (k : Addr)
  /-- AND (R225). -/
  | band (r x : Reg) (k : Addr)
  /-- SHL (44_shift.md R250). -/
  | shl (r x : Reg) (k : Addr)
  /-- SHR (R251). -/
  | shr (r x : Reg) (k : Addr)
  /-- IO r=0, INDEC (45_io.md R262). -/
  | inDec (x : Reg) (k : Addr)
  /-- IO r=1, INCHR (R263): `x` names the register written, `k` is ignored. -/
  | inChr (x : Reg) (k : Addr)
  /-- IO r=2, OUTDEC (R264). -/
  | outDec (x : Reg) (k : Addr)
  /-- IO r=3, OUTCHR (R265): `x` names the register read, `k` is ignored. -/
  | outChr (x : Reg) (k : Addr)
  /-- BR r=0, HALT (46_control.md R290): the x-index is the trace verbosity, `k` is ignored. -/
  | halt (v : Verbosity) (k : Addr)
  /-- BR r=1, DJMP (R291). -/
  | djmp (x : Reg) (k : Addr)
  /-- BR r=2, JREL (R292). -/
  | jrel (x : Reg) (k : Addr)
  /-- BR r=3, JMP (R293). -/
  | jmp (x : Reg) (k : Addr)
  /-- BRZ (R296). -/
  | brz (r x : Reg) (k : Addr)
  /-- BRN (R297). -/
  | brn (r x : Reg) (k : Addr)
  /-- BRS (R298). -/
  | brs (r x : Reg) (k : Addr)
  /-- NOP (R299): a Word with a reserved bit set. All its fields are ignored. -/
  | nop (op : BitVec 4) (r x : Reg) (resv : BitVec 4) (k : Addr)
deriving DecidableEq, Repr

end Sys2Proof
end

