-- ==== Sys2Proof/WellFormed.lean ====
section
/-! DEFINITION. The instructions that some Word encodes. -/

namespace Sys2Proof

/-- A NOP has a reserved bit set (30_encoding.md R95); every other instruction is well formed with any operands,
because each field's type is the encoding's field (30_encoding.md R91, R96). -/
def Instr.wellFormed : Instr → Bool
  | .nop _ _ _ resv _ => decide (resv ≠ 0)
  | .ld _ _ _ | .ldi _ _ _ | .st _ _ _ | .add _ _ _ | .sub _ _ _ | .mul _ _ _ | .div _ _ _ | .bor _ _ _
  | .band _ _ _ | .shl _ _ _ | .shr _ _ _ | .inDec _ _ | .inChr _ _ | .outDec _ _ | .outChr _ _ | .halt _ _
  | .djmp _ _ | .jrel _ _ | .jmp _ _ | .brz _ _ _ | .brn _ _ _ | .brs _ _ _ => true

end Sys2Proof
end

