-- ==== Sys2Proof/Decode.lean ====
section
/-! DEFINITION. Decoding and encoding of one instruction Word (30_encoding.md R90 to R97).
Decoding is total: no Word is illegal and none traps (R96), so nothing is rejected. -/

namespace Sys2Proof

/-- The opcode field `w[19:16]` (R91). -/
def opField (w : Word) : BitVec 4 := w.extractLsb' 16 4

/-- The r-index field `w[15:14]` (R91). -/
def rField (w : Word) : BitVec 2 := w.extractLsb' 14 2

/-- The x-index field `w[13:12]` (R91). -/
def xField (w : Word) : BitVec 2 := w.extractLsb' 12 2

/-- The reserved bits `w[11:8]` (R91). -/
def resvField (w : Word) : BitVec 4 := w.extractLsb' 8 4

/-- The s-field `w[7:0]` (R91). -/
def sField (w : Word) : Addr := w.extractLsb' 0 8

/-- The register a 2-bit index names (10_state.md R31). -/
def regOf (b : BitVec 2) : Reg :=
  match b.toNat with
  | 0 => .r0
  | 1 => .r1
  | 2 => .r2
  | _ => .r3

/-- The trace verbosity the x-index of BR r=0 selects (46_control.md R290). -/
def verbosityOf (b : BitVec 2) : Verbosity :=
  match b.toNat with
  | 0 => .none
  | 1 => .memory
  | 2 => .registers
  | _ => .both

/-- IO: the r field selects the sub-operation (R94). -/
def decodeIO (r x : BitVec 2) (k : Addr) : Instr :=
  match r.toNat with
  | 0 => .inDec (regOf x) k
  | 1 => .inChr (regOf x) k
  | 2 => .outDec (regOf x) k
  | _ => .outChr (regOf x) k

/-- BR: the r field selects the sub-operation (R94). -/
def decodeBR (r x : BitVec 2) (k : Addr) : Instr :=
  match r.toNat with
  | 0 => .halt (verbosityOf x) k
  | 1 => .djmp (regOf x) k
  | 2 => .jrel (regOf x) k
  | _ => .jmp (regOf x) k

/-- The opcode map (R93). -/
def decodeOp (op : BitVec 4) (r x : BitVec 2) (k : Addr) : Instr :=
  match op.toNat with
  | 0 => .ld (regOf r) (regOf x) k
  | 1 => .ldi (regOf r) (regOf x) k
  | 2 => .st (regOf r) (regOf x) k
  | 3 => .add (regOf r) (regOf x) k
  | 4 => .sub (regOf r) (regOf x) k
  | 5 => .mul (regOf r) (regOf x) k
  | 6 => .div (regOf r) (regOf x) k
  | 7 => .bor (regOf r) (regOf x) k
  | 8 => .band (regOf r) (regOf x) k
  | 9 => .shl (regOf r) (regOf x) k
  | 10 => .shr (regOf r) (regOf x) k
  | 11 => decodeIO r x k
  | 12 => decodeBR r x k
  | 13 => .brz (regOf r) (regOf x) k
  | 14 => .brn (regOf r) (regOf x) k
  | _ => .brs (regOf r) (regOf x) k

/-- Decoding of a fetched Word: the reserved-bit rule first (R95), then the opcode map (R93). -/
def decode (w : Word) : Instr :=
  if resvField w ≠ 0 then .nop (opField w) (regOf (rField w)) (regOf (xField w)) (resvField w) (sField w)
  else decodeOp (opField w) (rField w) (xField w) (sField w)

/-- The 2-bit index of a register (10_state.md R31). -/
def Reg.index : Reg → Nat
  | .r0 => 0
  | .r1 => 1
  | .r2 => 2
  | .r3 => 3

/-- The x-index that selects a trace verbosity (46_control.md R290). -/
def Verbosity.index : Verbosity → Nat
  | .none => 0
  | .memory => 1
  | .registers => 2
  | .both => 3

/-- `op*2^16 + r*2^14 + x*2^12 + s` of R92, with the reserved bits at 2^8 for a NOP. -/
def pack (op r x resv : Nat) (k : Addr) : Word :=
  BitVec.ofNat 20 (op * 2 ^ 16 + r * 2 ^ 14 + x * 2 ^ 12 + resv * 2 ^ 8 + k.toNat)

/-- The Word that encodes an instruction (R92 to R95). -/
def encode : Instr → Word
  | .ld r x k => pack 0 r.index x.index 0 k
  | .ldi r x k => pack 1 r.index x.index 0 k
  | .st r x k => pack 2 r.index x.index 0 k
  | .add r x k => pack 3 r.index x.index 0 k
  | .sub r x k => pack 4 r.index x.index 0 k
  | .mul r x k => pack 5 r.index x.index 0 k
  | .div r x k => pack 6 r.index x.index 0 k
  | .bor r x k => pack 7 r.index x.index 0 k
  | .band r x k => pack 8 r.index x.index 0 k
  | .shl r x k => pack 9 r.index x.index 0 k
  | .shr r x k => pack 10 r.index x.index 0 k
  | .inDec x k => pack 11 0 x.index 0 k
  | .inChr x k => pack 11 1 x.index 0 k
  | .outDec x k => pack 11 2 x.index 0 k
  | .outChr x k => pack 11 3 x.index 0 k
  | .halt v k => pack 12 0 v.index 0 k
  | .djmp x k => pack 12 1 x.index 0 k
  | .jrel x k => pack 12 2 x.index 0 k
  | .jmp x k => pack 12 3 x.index 0 k
  | .brz r x k => pack 13 r.index x.index 0 k
  | .brn r x k => pack 14 r.index x.index 0 k
  | .brs r x k => pack 15 r.index x.index 0 k
  | .nop op r x resv k => pack op.toNat r.index x.index resv.toNat k

/-- The instruction the decoder reads from the Word whose bits are `w`. Every instruction is one 20-bit Word (R90),
so a number that has no 20-bit spelling is no instruction. -/
def decodeTableWord (_nbits w : Nat) : Option Instr :=
  if w < 2 ^ 20 then some (decode (BitVec.ofNat 20 w)) else none

end Sys2Proof
end

