-- ==== Sys2Proof/Machine/State.lean ====
section
/-! DEFINITION. The state of the machine as plain data (10_state.md R30), the channel and trace ports as data
(00_scope.md R22 to R25), the reasons a step can stop, and the state after reset (R49). -/

namespace Sys2Proof.Machine

/-- Why a run was aborted: the three fatal conditions (60_exceptions.md R321). -/
inductive AbortReason where
  | endOfInput
  | illegalIO
  | instructionLimitExceeded
deriving DecidableEq, Repr

/-- The run state, which the status port presents (10_state.md R43, 00_scope.md R24). -/
inductive RunState where
  | running
  | halted
  | aborted (reason : AbortReason)
deriving DecidableEq, Repr

/-- The four recoverable conditions with what each records (60_exceptions.md R320, R324). -/
inductive Warning where
  /-- `addr` is the integer address or target that failed the check. -/
  | illegalAddress (addr : Int)
  | divisionByZero
  /-- `amount` is the shift amount outside 0..19. -/
  | invalidShiftAmount (amount : Int)
  /-- `token` holds the bytes of the malformed decimal token. -/
  | malformedNumber (token : List Byte)
deriving DecidableEq, Repr

/-- The general registers (10_state.md R31). -/
structure RegFile where
  r0 : Word
  r1 : Word
  r2 : Word
  r3 : Word
deriving DecidableEq, Repr

/-- Memory as (address, Word) pairs in one canonical form (`Memory.wf`): addresses strictly rising and below 256, no
Word equal to what an unlisted address reads as. The unit is the 20-bit Word, for the machine has no bytes in memory
(20_memory.md R61, R65; log 1). -/
abbrev Memory := List (Nat × Word)

/-- What an address nothing has written reads as (20_memory.md R64). -/
@[simp] abbrev Memory.unlisted : Word := 0

/-- How the host answers `advance()`, `writeChars` or `writeByte` (00_scope.md R22, R23). -/
inductive ChanAnswer where
  | ok
  | err
deriving DecidableEq, Repr

/-- How the host answers `peekNext()` at one input position (00_scope.md R22; log 4, log 5). -/
inductive InAnswer where
  /-- The byte `b`; `advance()` on it answers `adv`. -/
  | byte (b : Byte) (adv : ChanAnswer)
  /-- End of stream, answered for ever (45_io.md R260). -/
  | eof
  /-- An unrecoverable channel error. -/
  | err
deriving DecidableEq, Repr

/-- An output event (00_scope.md R23). -/
inductive OutEvent where
  | outDec (v : Int)
  | outByte (b : Byte)
deriving DecidableEq, Repr

/-- Fetch address and fetched Word of a cycle (41_cycle.md R170, R172). -/
structure Fetched where
  addr : Addr
  word : Word
deriving DecidableEq, Repr

/-- The memory operand in a trace record (60_exceptions.md R340): its integer address and the Word there before and
after the body, none where the address is illegal (log 11). -/
structure MemOperand where
  addr : Int
  before : Option Word
  after : Option Word
deriving DecidableEq, Repr

/-- One ExecutionTrace record (60_exceptions.md R340). `instr` holds the decoded fields and the effective operation,
`pcBefore` the PC the body started with (log 11). -/
structure TraceRecord where
  cycle : Nat
  fetched : Fetched
  instr : Instr
  regsBefore : RegFile
  pcBefore : Addr
  regsAfter : RegFile
  pcAfter : Addr
  operand : Option MemOperand
  warning : Option Warning
deriving DecidableEq, Repr

/-- The register part of a dump: the registers and the PC (60_exceptions.md R342; log 10). -/
structure RegDump where
  regs : RegFile
  pc : Addr
deriving DecidableEq, Repr

/-- A state dump (60_exceptions.md R342): the parts it holds. The memory part stands for all 256 Words. -/
structure Dump where
  regs : Option RegDump
  mem : Option Memory
deriving DecidableEq, Repr

/-- What the trace port carries (00_scope.md R25). -/
inductive TraceEvent where
  | record (r : TraceRecord)
  | dump (d : Dump)
deriving DecidableEq, Repr

/-- The state of the block and of its ports. -/
structure State where
  /-- R0 to R3 (R30, R31). -/
  regs : RegFile
  /-- The program counter (R30, R37). -/
  pc : Addr
  /-- M[0..255] (R30, R42). -/
  mem : Memory
  /-- The run state (R30, R43). -/
  run : RunState
  /-- The executed-instruction counter (R30, R44). -/
  count : Nat
  /-- The input channel from its read position on; the empty list is a host that has not answered yet (R22; log 4). -/
  input : List InAnswer
  /-- The answers to the coming output calls; the empty list answers ok (R23; log 6). -/
  outAnswers : List ChanAnswer
  /-- The output sequence, oldest first (R23, R49; log 12). -/
  output : List OutEvent
  /-- The condition of the current cycle, for the trace record (R48, R324; log 12). -/
  warning : Option Warning
  /-- `some tok` while an IO body waits on the input port, having taken the token bytes `tok` (R179, R260; log 7). -/
  wait : Option (List Byte)
  /-- The cycle that is held, if one is (R179; log 7). -/
  fetched : Option Fetched
  /-- What the trace port has carried, oldest first (R25, R340, R342; log 12). -/
  trace : List TraceEvent
deriving DecidableEq, Repr

/-- The reasons a step can stop with a fault: none. Every condition of this machine is a next state: a recoverable one
sets `warning` and goes on, a fatal one sets `run` (60_exceptions.md R320 to R322). So there is no constructor, which is
safe: no behaviour of the spec is cut off. -/
inductive Fault where
deriving DecidableEq, Repr

/-- The reasons for a refusal. -/
inductive Refusal where
  /-- Raised by an arm of `exec` for an instruction without a meaning; no arm raises it now. Safe: the model stops. -/
  | notModelled (mnemonic : String)
  /-- Raised by `boot` alone, for an image that breaks the launch premise: "the block does not start a run on it"
  (70_reset_and_hazards.md R362). Safe: it is the spec's own refusal. -/
  | badImage
deriving DecidableEq, Repr

/-- The register values `State.reset` takes for the OPEN parameter REG_INIT: zero (DESIGN CHOICE, unsafe: log 2). -/
def RegFile.zero : RegFile := ⟨0, 0, 0, 0⟩

/-- A dump of the whole state (60_exceptions.md R342). -/
def Dump.full (regs : RegFile) (pc : Addr) (mem : Memory) : Dump := ⟨some ⟨regs, pc⟩, some mem⟩

/-- The state in which a run starts (10_state.md R49, 70_reset_and_hazards.md R360): registers, entry point and memory
as given, `Running`, counter 0, no output, and the start-of-run dump on the trace port. -/
def State.start (regs : RegFile) (pc : Addr) (mem : Memory) (input : List InAnswer) (outAnswers : List ChanAnswer) :
    State where
  regs := regs
  pc := pc
  mem := mem
  run := .running
  count := 0
  input := input
  outAnswers := outAnswers
  output := []
  warning := none
  wait := none
  fetched := none
  trace := [.dump (.full regs pc mem)]

/-- The machine right after reset with nothing placed: the run of the empty image with execStart 0, registers zero,
and a host that has answered nothing (DESIGN CHOICE, unsafe: log 2, log 3, log 4, log 6). -/
def State.reset : State := State.start .zero 0 [] [] []

end Sys2Proof.Machine
end

