-- ==== Sys2Proof/Machine/Alu.lean ====
section
/-! DEFINITION. The 20-bit arithmetic unit (40_alu.md R120 to R134) and the conversions between Words, Addresses,
integers and hexadecimal digits. A partial operation answers a Word or a condition (00_scope.md R11). -/

namespace Sys2Proof.Machine

/-- `signed(w)`, the source's `toDecimalSigned` (00_scope.md R8, R132). -/
abbrev signed (w : Word) : Int := w.toInt

/-- `wrap20(n)`: the Word whose unsigned value is `n mod 2^20` (R8). -/
abbrev wrap20 (n : Int) : Word := BitVec.ofInt 20 n

/-- `zext_20(a)`, the source's `extendToWord` (R9, R132). -/
abbrev zext20 (a : Addr) : Word := a.setWidth 20

/-- `trunc_8(w)`, the source's `truncateToAddress` (R9, R132). -/
abbrev trunc8 (w : Word) : Addr := w.setWidth 8

/-- `add` wraps silently modulo 2^20 (R121). -/
def aluAdd (a b : Word) : Word := wrap20 (a.toNat + b.toNat)

/-- `negate`: invert the bits and increment (R122). -/
def aluNegate (a : Word) : Word := aluAdd (a ^^^ 0xFFFFF#20) 1#20

/-- `subtract(a, b) = add(a, negate(b))` (R123). -/
def aluSubtract (a b : Word) : Word := aluAdd a (aluNegate b)

/-- `multiply`, by the closed form of R124: the low 20 bits of the product. -/
def aluMultiply (a b : Word) : Word := wrap20 (a.toNat * b.toNat)

/-- The shift-and-add loop of R124 over the low `n` bits of `b`, from bit 0 up. -/
def shiftAndAdd (a b : Word) : Nat → Word
  | 0 => 0
  | n + 1 =>
    if b.getLsbD n then aluAdd (shiftAndAdd a b n) (wrap20 (a.toNat * 2 ^ n)) else shiftAndAdd a b n

/-- The magnitude of an operand as an unsigned 20-bit number: negated if negative (R125). -/
def magnitude (a : Word) : Nat := if a.msb then (aluNegate a).toNat else a.toNat

/-- `divideBy`: divide the magnitudes, then apply the exclusive-or of the operand signs (R125). -/
def aluDivideBy (a b : Word) : Except Warning Word :=
  if b = 0 then .error .divisionByZero
  else
    let q := wrap20 ((magnitude a / magnitude b : Nat) : Int)
    .ok (if a.msb ^^ b.msb then aluNegate q else q)

/-- The loop of the restoring long division of R125: with the remainder `rem` so far, for j = k-1 down to 0 subtract
`d * 2^j` and set quotient bit j where the remainder is at least that much. -/
def restoringLoop (d : Nat) : Nat → Nat → Nat
  | 0, _ => 0
  | j + 1, rem =>
    if d * 2 ^ j ≤ rem then 2 ^ j + restoringLoop d j (rem - d * 2 ^ j) else restoringLoop d j rem

/-- Restoring long division of `n` by `d` on 20 bits (R125): the shift that brings the divisor's leading 1 to bit 19 is
`19 - log2 d`, and the loop runs from there down to 0. -/
def restoringDivide (n d : Nat) : Nat := restoringLoop d (19 - Nat.log2 d + 1) n

/-- `shiftLeft`: high bits are lost, low bits are zero (R127). -/
def aluShiftLeft (a : Word) (n : Int) : Except Warning Word :=
  if n < 0 ∨ n > (Config.shiftMax : Int) then .error (.invalidShiftAmount n)
  else .ok (wrap20 (a.toNat * 2 ^ n.toNat))

/-- `shiftRight` is arithmetic: it fills from the top with copies of the sign bit, `sext_20(a[19:n])` (R128). -/
def aluShiftRight (a : Word) (n : Int) : Except Warning Word :=
  if n < 0 ∨ n > (Config.shiftMax : Int) then .error (.invalidShiftAmount n)
  else .ok (a.sshiftRight n.toNat)

/-- Bitwise and on all 20 bits (R129). -/
def aluAnd (a b : Word) : Word := a &&& b

/-- Bitwise or on all 20 bits (R129). -/
def aluOr (a b : Word) : Word := a ||| b

/-- `isRepresentable(n, 20)` (R133). -/
def isRepresentable (n : Int) : Bool := decide (-2 ^ 19 ≤ n ∧ n ≤ 2 ^ 19 - 1)

/-- `fromDecimal(n, 20)`: the Word of an integer that is representable (R133). -/
def fromDecimal (n : Int) : Option Word := if isRepresentable n then some (wrap20 n) else none

/-- One uppercase hexadecimal digit (R134). -/
def hexDigit (n : Nat) : Char := if n < 10 then Char.ofNat (48 + n) else Char.ofNat (55 + n)

/-- The value of an uppercase hexadecimal digit (R134). -/
def hexValue (c : Char) : Option Nat :=
  if 48 ≤ c.toNat ∧ c.toNat ≤ 57 then some (c.toNat - 48)
  else if 65 ≤ c.toNat ∧ c.toNat ≤ 70 then some (c.toNat - 55)
  else none

/-- `n` hexadecimal digits of a number, most significant first (R134, D2). -/
def hexDigits : Nat → Nat → List Char
  | 0, _ => []
  | n + 1, v => hexDigits n (v / 16) ++ [hexDigit (v % 16)]

/-- `toHex` of a Word: 5 digits (R134). -/
def toHex (w : Word) : List Char := hexDigits 5 w.toNat

/-- `toHex` of an Address: 2 digits (R134). -/
def addrToHex (a : Addr) : List Char := hexDigits 2 a.toNat

/-- The number that hexadecimal digits after the value `acc` spell, most significant first (R134). -/
def hexNumber (acc : Nat) : List Char → Option Nat
  | [] => some acc
  | c :: cs =>
    match hexValue c with
    | some d => hexNumber (acc * 16 + d) cs
    | none => none

/-- `fromHex` of a Word: exactly 5 digits (R134). -/
def fromHex (cs : List Char) : Option Word :=
  if cs.length = 5 then (hexNumber 0 cs).map (BitVec.ofNat 20) else none

/-- `fromHex` of an Address: exactly 2 digits (R134). -/
def addrFromHex (cs : List Char) : Option Addr :=
  if cs.length = 2 then (hexNumber 0 cs).map (BitVec.ofNat 8) else none

end Sys2Proof.Machine
end

