-- ==== Sys2Proof/Machine/Flags.lean ====
section
/-! DEFINITION. The block has no status flags, condition codes or carry outputs (10_state.md R45, 40_alu.md R120): no
instruction computes one. What other machines read from a flag, this one tests on a register directly. -/

namespace Sys2Proof.Machine

/-- `isZero`, the compare-to-zero that BRZ uses (40_alu.md R130). -/
def isZero (a : Word) : Bool := a == 0

/-- `isPositive`: the sign bit is clear, so 0 counts as positive; the sign test of BRN (R131). -/
def isPositive (a : Word) : Bool := !a.msb

end Sys2Proof.Machine
end

