-- ==== Sys2Proof/Machine/Ops.lean ====
section
/-! DEFINITION. The named operations over registers, PC, memory, conditions and ports, which the meanings share. -/

namespace Sys2Proof.Machine

/-! ### General registers -/

/-- `get(i)` (10_state.md R31). -/
def RegFile.get (f : RegFile) : Reg → Word
  | .r0 => f.r0
  | .r1 => f.r1
  | .r2 => f.r2
  | .r3 => f.r3

/-- `set(i, word)` (R31): no register is hardwired and none aliases another. -/
def RegFile.set (f : RegFile) (i : Reg) (v : Word) : RegFile :=
  match i with
  | .r0 => { f with r0 := v }
  | .r1 => { f with r1 := v }
  | .r2 => { f with r2 := v }
  | .r3 => { f with r3 := v }

/-- `x[i]` (00_scope.md R10). -/
def State.reg (s : State) (i : Reg) : Word := s.regs.get i

/-- `x[i] <- v` (R10). -/
def State.setReg (s : State) (i : Reg) (v : Word) : State := { s with regs := s.regs.set i v }

/-- A Word with its low byte replaced, `w[19:8] ++ b` (10_state.md R34). -/
def withLowByte (w : Word) (b : Byte) : Word := w.extractLsb' 8 12 ++ b

/-- `storeIOByte(i, b)` writes bits 7..0 of Ri only (R34). -/
def State.storeIOByte (s : State) (i : Reg) (b : Byte) : State := s.setReg i (withLowByte (s.reg i) b)

/-- `loadSignificantIOByte(i)` returns `x[i][19:12]` (R35). -/
def State.loadSignificantIOByte (s : State) (i : Reg) : Byte := (s.reg i).extractLsb' 12 8

/-! ### Program counter -/

/-- `pc <- a` (00_scope.md R10). -/
def State.setPcRaw (s : State) (a : Addr) : State := { s with pc := a }

/-- `incrementPC()` wraps modulo 256 (10_state.md R38). -/
def State.incrementPC (s : State) : State := s.setPcRaw (s.pc + 1)

/-- `storePC(i)` writes the zero-extended PC (R36, C1). -/
def State.storePC (s : State) (i : Reg) : State := s.setReg i (zext20 s.pc)

/-- The check that `setPC` and `indexPC` share: a target with `signed >= 256` fails, any other gives its low 8 bits,
a negative one included (R39, R40, I1). -/
def jumpTarget (w : Word) : Except Warning Addr :=
  if signed w ≥ (Config.memWords : Int) then .error (.illegalAddress (signed w)) else .ok (trunc8 w)

/-- `setPC(w)` (R39). -/
def State.setPC (s : State) (w : Word) : Except Warning State := (jumpTarget w).map s.setPcRaw

/-- `indexPC(off)` (R40). -/
def State.indexPC (s : State) (off : Word) : Except Warning State := s.setPC (aluAdd (zext20 s.pc) off)

/-! ### Memory -/

/-- The Word at an address (10_state.md R42, 20_memory.md R64). -/
def Memory.read : Memory → Nat → Word
  | [], _ => Memory.unlisted
  | (k, v) :: m, a => if k = a then v else Memory.read m a

/-- Replace the Word at an address (R62), keeping the canonical form. -/
def Memory.write : Memory → Nat → Word → Memory
  | [], a, v => if v = Memory.unlisted then [] else [(a, v)]
  | (k, w) :: m, a, v =>
    if a < k then if v = Memory.unlisted then (k, w) :: m else (a, v) :: (k, w) :: m
    else if a = k then if v = Memory.unlisted then m else (a, v) :: m
    else (k, w) :: Memory.write m a v

/-- The canonical form from address `lo` up. -/
def Memory.wfFrom : Nat → Memory → Bool
  | _, [] => true
  | lo, (k, v) :: m => decide (lo ≤ k ∧ k < Config.memWords ∧ v ≠ Memory.unlisted) && Memory.wfFrom (k + 1) m

/-- The canonical form: addresses strictly rising and below 256, no entry that an unlisted address reads as. -/
def Memory.wf (m : Memory) : Bool := Memory.wfFrom 0 m

/-- An address that the bounds check of R62 lets through. -/
abbrev legalAddress (a : Int) : Prop := 0 ≤ a ∧ a < (Config.memWords : Int)

/-- `MemRead(addr, 1)` with its bounds check (R62, D3). -/
def State.memRead (s : State) (a : Int) : Except Warning Word :=
  if legalAddress a then .ok (s.mem.read a.toNat) else .error (.illegalAddress a)

/-- `M[a] <- v` at a legal address (R62). -/
def State.setWord (s : State) (a : Nat) (v : Word) : State := { s with mem := s.mem.write a v }

/-- `MemWrite(addr, 1, v)` with its bounds check (R62, D3). -/
def State.memWrite (s : State) (a : Int) (v : Word) : Except Warning State :=
  if legalAddress a then .ok (s.setWord a.toNat v) else .error (.illegalAddress a)

/-- The Word the cycle fetches, `M[pc]`; it cannot fail (41_cycle.md R172). -/
def State.fetch (s : State) : Word := s.mem.read s.pc.toNat

/-! ### Conditions: there is no trap entry and no trap return (60_exceptions.md R328, R329), these three stand for them -/

/-- `warn K`: record a recoverable condition for the current cycle; the run goes on (00_scope.md R10,
41_cycle.md R176). -/
def State.warn (s : State) (w : Warning) : State := { s with warning := some w }

/-- The end of a body at a step that may fail: its state, or `s` with the condition recorded. What the body wrote
before that step stands in `s` and stays (41_cycle.md R176, C7). -/
def State.orWarn (s : State) : Except Warning State → State
  | .ok t => t
  | .error w => s.warn w

/-- `run <- v`: entering a terminal state (10_state.md R43). -/
def State.setRun (s : State) (v : RunState) : State := { s with run := v }

/-- `abort R`: the run ends at once in `Aborted(R)` (00_scope.md R10, 41_cycle.md R177). -/
def State.abort (s : State) (r : AbortReason) : State := s.setRun (.aborted r)

/-! ### Ports -/

/-- Add an event to the trace port (00_scope.md R25). -/
def State.emitTrace (s : State) (e : TraceEvent) : State := { s with trace := s.trace ++ [e] }

/-- A dump of the whole state (60_exceptions.md R342). -/
def State.fullDump (s : State) : Dump := .full s.regs s.pc s.mem

/-- The dump BR r=0 emits: none, memory, registers or both (46_control.md R290). -/
def State.emitDump (s : State) : Verbosity → State
  | .none => s
  | .memory => s.emitTrace (.dump ⟨none, some s.mem⟩)
  | .registers => s.emitTrace (.dump ⟨some ⟨s.regs, s.pc⟩, none⟩)
  | .both => s.emitTrace (.dump s.fullDump)

/-- An output call: the event joins the output sequence, or the channel answers `Err` and the run aborts with IllegalIO
(00_scope.md R23, 60_exceptions.md R321). One answer is used up; with no answer listed the call succeeds (log 6). -/
def State.emitOut (s : State) (e : OutEvent) : State :=
  match s.outAnswers with
  | [] => { s with output := s.output ++ [e] }
  | .ok :: rest => { s with output := s.output ++ [e], outAnswers := rest }
  | .err :: rest => { s with outAnswers := rest }.abort .illegalIO

/-- The input channel moves on to `rest`, and the body waits on it or does not (41_cycle.md R179; log 7). -/
def State.setInput (s : State) (rest : List InAnswer) (w : Option (List Byte)) : State :=
  { s with input := rest, wait := w }

/-- The host's move between two steps: more answers on the input channel (00_scope.md R26; log 4). -/
def State.deliver (s : State) (more : List InAnswer) : State := { s with input := s.input ++ more }

/-- The numeric code of the status port (60_exceptions.md R326). -/
def RunState.code : RunState → Nat
  | .running => 0
  | .halted => 1
  | .aborted .endOfInput => 2
  | .aborted .illegalIO => 3
  | .aborted .instructionLimitExceeded => 4

/-- The numeric code of a warning on the trace port (R326). -/
def warningCode : Option Warning → Nat
  | none => 0
  | some (.illegalAddress _) => 1
  | some .divisionByZero => 2
  | some (.invalidShiftAmount _) => 3
  | some (.malformedNumber _) => 4

/-- The bytes a host prints for the output sequence, with the OPEN parameter OUT_DEC_FORMAT as the argument `fmt`
(00_scope.md R6, R23; log 17). -/
def renderOutput (fmt : Int → List Byte) : List OutEvent → List Byte
  | [] => []
  | .outDec v :: es => fmt v ++ renderOutput fmt es
  | .outByte b :: es => b :: renderOutput fmt es

end Sys2Proof.Machine
end

