-- ==== Sys2Proof/Machine/Operands.lean ====
section
/-! DEFINITION. The one operand form S(X) (30_encoding.md R100 to R103) and what the instructions make of it. -/

namespace Sys2Proof.Machine

/-- `S(X)`: the zero-extended s-field, plus register x unless x = 0; the sum wraps (R100). -/
def State.sx (s : State) (x : Reg) (k : Addr) : Word :=
  match x with
  | .r0 => zext20 k
  | .r1 | .r2 | .r3 => aluAdd (zext20 k) (s.reg x)

/-- The integer address of a memory operand, and the amount of a shift: `signed(S(X))` (20_memory.md R63, R102). -/
def State.sxInt (s : State) (x : Reg) (k : Addr) : Int := signed (s.sx x k)

/-- The memory operand `M[signed(S(X))]` (R63). -/
def State.readOperand (s : State) (x : Reg) (k : Addr) : Except Warning Word := s.memRead (s.sxInt x k)

/-- A store to the memory operand (R63). -/
def State.writeOperand (s : State) (x : Reg) (k : Addr) (v : Word) : Except Warning State :=
  s.memWrite (s.sxInt x k) v

/-- The shape of ADD to AND: `R <- R op M[S(X)]`, R unchanged on a condition (43_arith_logic.md). -/
def State.arith (s : State) (op : Word → Word → Except Warning Word) (r x : Reg) (k : Addr) : State :=
  s.orWarn ((s.readOperand x k).bind fun m => (op (s.reg r) m).map (s.setReg r))

/-- The shape of SHL and SHR: `R <- shift(R, signed(S(X)))`, R unchanged on a condition (44_shift.md). -/
def State.shift (s : State) (op : Word → Int → Except Warning Word) (r x : Reg) (k : Addr) : State :=
  s.orWarn ((op (s.reg r) (s.sxInt x k)).map (s.setReg r))

/-- The integer address of the memory operand of an instruction that has one (R102), for the trace record. -/
def State.operandAddress (s : State) : Instr → Option Int
  | .ld _ x k | .st _ x k | .add _ x k | .sub _ x k | .mul _ x k | .div _ x k | .bor _ x k | .band _ x k
  | .inDec x k | .outDec x k => some (s.sxInt x k)
  | .ldi _ _ _ | .shl _ _ _ | .shr _ _ _ | .inChr _ _ | .outChr _ _ | .halt _ _ | .djmp _ _ | .jrel _ _
  | .jmp _ _ | .brz _ _ _ | .brn _ _ _ | .brs _ _ _ | .nop _ _ _ _ _ => none

end Sys2Proof.Machine
end

