-- ==== Sys2Proof/Machine/ArithLogic.lean ====
section
/-! DEFINITION. ADD, SUB, MUL, DIV, OR and AND (43_arith_logic.md): the register is the first operand and the memory
Word the second. -/

namespace Sys2Proof.Machine

/-- ADD (R220). -/
def execAdd (r x : Reg) (k : Addr) (s : State) : Host.Outcome State Fault Refusal :=
  .next (s.arith (fun a m => .ok (aluAdd a m)) r x k)

/-- SUB (R221). -/
def execSub (r x : Reg) (k : Addr) (s : State) : Host.Outcome State Fault Refusal :=
  .next (s.arith (fun a m => .ok (aluSubtract a m)) r x k)

/-- MUL (R222). -/
def execMul (r x : Reg) (k : Addr) (s : State) : Host.Outcome State Fault Refusal :=
  .next (s.arith (fun a m => .ok (aluMultiply a m)) r x k)

/-- DIV: IllegalAddress is checked first, then DivisionByZero (R223, 60_exceptions.md R327). -/
def execDiv (r x : Reg) (k : Addr) (s : State) : Host.Outcome State Fault Refusal :=
  .next (s.arith aluDivideBy r x k)

/-- OR (R224). -/
def execBor (r x : Reg) (k : Addr) (s : State) : Host.Outcome State Fault Refusal :=
  .next (s.arith (fun a m => .ok (aluOr a m)) r x k)

/-- AND (R225). -/
def execBand (r x : Reg) (k : Addr) (s : State) : Host.Outcome State Fault Refusal :=
  .next (s.arith (fun a m => .ok (aluAnd a m)) r x k)

end Sys2Proof.Machine
end

