-- ==== Sys2Proof/Machine/Control.lean ====
section
/-! DEFINITION. BR and its four sub-operations, BRZ, BRN, BRS and NOP (46_control.md). A jump that fails leaves the PC at
PC' and the run goes on (R300, 60_exceptions.md R325). -/

namespace Sys2Proof.Machine

/-- HALT: dump what the x-index selects, then enter Halted (R290). -/
def execHalt (v : Verbosity) (_k : Addr) (s : State) : Host.Outcome State Fault Refusal :=
  .next ((s.emitDump v).setRun .halted)

/-- DJMP: dump the full state, then `setPC(S(X))` (R291). -/
def execDjmp (x : Reg) (k : Addr) (s : State) : Host.Outcome State Fault Refusal :=
  let t := s.emitTrace (.dump s.fullDump)
  .next (t.orWarn (t.setPC (s.sx x k)))

/-- JREL: `indexPC(S(X))`, relative to PC' (R292). -/
def execJrel (x : Reg) (k : Addr) (s : State) : Host.Outcome State Fault Refusal :=
  .next (s.orWarn (s.indexPC (s.sx x k)))

/-- JMP: `setPC(S(X))` (R293). -/
def execJmp (x : Reg) (k : Addr) (s : State) : Host.Outcome State Fault Refusal :=
  .next (s.orWarn (s.setPC (s.sx x k)))

/-- BRZ: a branch not taken checks nothing (R296). -/
def execBrz (r x : Reg) (k : Addr) (s : State) : Host.Outcome State Fault Refusal :=
  .next (if isZero (s.reg r) then s.orWarn (s.setPC (s.sx x k)) else s)

/-- BRN (R297). -/
def execBrn (r x : Reg) (k : Addr) (s : State) : Host.Outcome State Fault Refusal :=
  .next (if isPositive (s.reg r) then s else s.orWarn (s.setPC (s.sx x k)))

/-- BRS: link PC' in R, then `setPC(S(X))` with the S(X) of before the link; a jump that fails keeps the link
(R298, 30_encoding.md R101). -/
def execBrs (r x : Reg) (k : Addr) (s : State) : Host.Outcome State Fault Refusal :=
  let t := s.storePC r
  .next (t.orWarn (t.setPC (s.sx x k)))

/-- NOP: no effect and no condition (R299). -/
def execNop (_op : BitVec 4) (_r _x : Reg) (_resv : BitVec 4) (_k : Addr) (s : State) :
    Host.Outcome State Fault Refusal :=
  .next s

end Sys2Proof.Machine
end

