-- ==== Sys2Proof/Machine/Text.lean ====
section
/-! DEFINITION. Reading a decimal token from the input channel (45_io.md R260 to R262). -/

namespace Sys2Proof.Machine

/-- A separator byte: code 0..32 or 127..160 (R261). -/
def isSeparator (b : Byte) : Bool :=
  decide (b.toNat ≤ Config.separatorLowMax ∨
    (Config.separatorHighMin ≤ b.toNat ∧ b.toNat ≤ Config.separatorHighMax))

/-- The number that decimal digits after the value `acc` spell; none if a byte is no digit `0x30`..`0x39` (R261). -/
def decimalDigits (acc : Nat) : List Byte → Option Nat
  | [] => some acc
  | b :: bs => if 0x30 ≤ b.toNat ∧ b.toNat ≤ 0x39 then decimalDigits (acc * 10 + (b.toNat - 0x30)) bs else none

/-- One or more decimal digits. -/
def decimalNumber : List Byte → Option Nat
  | [] => none
  | b :: bs => decimalDigits 0 (b :: bs)

/-- The integer a token spells: one optional sign `+` (`0x2B`) or `-` (`0x2D`), then one or more digits (R261, D6). -/
def tokenInt : List Byte → Option Int
  | [] => none
  | b :: bs =>
    if b = 0x2B#8 then (decimalNumber bs).map fun n => (n : Int)
    else if b = 0x2D#8 then (decimalNumber bs).map fun n => -(n : Int)
    else (decimalNumber (b :: bs)).map fun n => (n : Int)

/-- The Word a token stands for; none exactly when the token is malformed (R261). -/
def tokenValue (tok : List Byte) : Option Word := (tokenInt tok).bind fromDecimal

/-- How the reading of a token ends. -/
inductive TokenEnd where
  /-- The token is read; the separator or EOF that ended it is not consumed. -/
  | token (tok : List Byte)
  /-- The channel has no answer yet; `tok` was taken so far (R260). -/
  | wait (tok : List Byte)
  /-- A fatal condition (R262). -/
  | abort (reason : AbortReason)
deriving DecidableEq, Repr

/-- The first loop of R262: skip separators. `none` says that the next input is a token byte; the list is the input
left. EOF here is an exhausted stream (D8). -/
def skipSeparators : List InAnswer → Option TokenEnd × List InAnswer
  | [] => (some (.wait []), [])
  | .eof :: rest => (some (.abort .endOfInput), .eof :: rest)
  | .err :: rest => (some (.abort .illegalIO), .err :: rest)
  | .byte b .ok :: rest => if isSeparator b then skipSeparators rest else (none, .byte b .ok :: rest)
  | .byte b .err :: rest =>
    if isSeparator b then (some (.abort .illegalIO), .byte b .err :: rest) else (none, .byte b .err :: rest)

/-- The second loop of R262: collect the token after the bytes `tok` (D6, D8). -/
def collectToken (tok : List Byte) : List InAnswer → TokenEnd × List InAnswer
  | [] => (.wait tok, [])
  | .eof :: rest => (.token tok, .eof :: rest)
  | .err :: rest => (.abort .illegalIO, .err :: rest)
  | .byte b .ok :: rest =>
    if isSeparator b then (.token tok, .byte b .ok :: rest) else collectToken (tok ++ [b]) rest
  | .byte b .err :: rest =>
    if isSeparator b then (.token tok, .byte b .err :: rest) else (.abort .illegalIO, .byte b .err :: rest)

/-- Both loops. `tok` is what a held cycle has taken already: while it is empty, separators are still skipped (log 7). -/
def readToken (tok : List Byte) (input : List InAnswer) : TokenEnd × List InAnswer :=
  if tok = [] then
    match skipSeparators input with
    | (some e, rest) => (e, rest)
    | (none, rest) => collectToken [] rest
  else collectToken tok input

end Sys2Proof.Machine
end

