-- ==== Sys2Proof/Machine/InOut.lean ====
section
/-! DEFINITION. The four IO operations (45_io.md). A body that finds no input yet sets `wait` and is run again when the
held cycle is resumed (41_cycle.md R179; log 7). -/

namespace Sys2Proof.Machine

/-- INDEC: read a decimal token, then check it, then check the address, then store (R262, D7). -/
def execInDec (x : Reg) (k : Addr) (s : State) : Host.Outcome State Fault Refusal :=
  match readToken (s.wait.getD []) s.input with
  | (.wait tok, rest) => .next (s.setInput rest (some tok))
  | (.abort reason, rest) => .next ((s.setInput rest none).abort reason)
  | (.token tok, rest) =>
    let s := s.setInput rest none
    match tokenValue tok with
    | none => .next (s.warn (.malformedNumber tok))
    | some v => .next (s.orWarn (s.writeOperand x k v))

/-- INCHR: read one raw byte into the low byte of `x[x]`; S(X) is not used (R263). -/
def execInChr (x : Reg) (_k : Addr) (s : State) : Host.Outcome State Fault Refusal :=
  match s.input with
  | [] => .next (s.setInput [] (some []))
  | .eof :: _ => .next ((s.setInput s.input none).abort .endOfInput)
  | .err :: _ => .next ((s.setInput s.input none).abort .illegalIO)
  | .byte _ .err :: _ => .next ((s.setInput s.input none).abort .illegalIO)
  | .byte b .ok :: rest => .next ((s.setInput rest none).storeIOByte x b)

/-- OUTDEC: write the signed value of the memory operand (R264). -/
def execOutDec (x : Reg) (k : Addr) (s : State) : Host.Outcome State Fault Refusal :=
  .next (s.orWarn ((s.readOperand x k).map fun m => s.emitOut (.outDec (signed m))))

/-- OUTCHR: write the high byte of `x[x]`; S(X) is not used (R265). -/
def execOutChr (x : Reg) (_k : Addr) (s : State) : Host.Outcome State Fault Refusal :=
  .next (s.emitOut (.outByte (s.loadSignificantIOByte x)))

end Sys2Proof.Machine
end

