-- ==== Sys2Proof/Machine/LoadStore.lean ====
section
/-! DEFINITION. LD, LDI and ST (42_load_store.md). A meaning is the instruction's body: it runs after the fetch-time PC
increment, so `s.pc` is PC' (00_scope.md R12; log 16). -/

namespace Sys2Proof.Machine

/-- LD: load a Word from memory into R (R200). -/
def execLd (r x : Reg) (k : Addr) (s : State) : Host.Outcome State Fault Refusal :=
  .next (s.orWarn ((s.readOperand x k).map (s.setReg r)))

/-- LDI: load the operand value itself into R (R201). -/
def execLdi (r x : Reg) (k : Addr) (s : State) : Host.Outcome State Fault Refusal :=
  .next (s.setReg r (s.sx x k))

/-- ST: store R into memory (R202). -/
def execSt (r x : Reg) (k : Addr) (s : State) : Host.Outcome State Fault Refusal :=
  .next (s.orWarn (s.writeOperand x k (s.reg r)))

end Sys2Proof.Machine
end

