-- ==== Sys2Proof/Machine/Shift.lean ====
section
/-! DEFINITION. SHL and SHR (44_shift.md): the amount is the operand value itself, not a memory Word. -/

namespace Sys2Proof.Machine

/-- SHL (R250). -/
def execShl (r x : Reg) (k : Addr) (s : State) : Host.Outcome State Fault Refusal :=
  .next (s.shift aluShiftLeft r x k)

/-- SHR, arithmetic (R251). -/
def execShr (r x : Reg) (k : Addr) (s : State) : Host.Outcome State Fault Refusal :=
  .next (s.shift aluShiftRight r x k)

end Sys2Proof.Machine
end

