-- ==== Sys2Proof/Machine/Dispatch.lean ====
section
/-! DEFINITION. Dispatch: exactly one meaning per instruction (41_cycle.md R175). -/

namespace Sys2Proof.Machine

def exec (i : Instr) (s : State) : Host.Outcome State Fault Refusal :=
  match i with
  | .ld r x k => Sys2Proof.Machine.execLd r x k s
  | .ldi r x k => Sys2Proof.Machine.execLdi r x k s
  | .st r x k => Sys2Proof.Machine.execSt r x k s
  | .add r x k => Sys2Proof.Machine.execAdd r x k s
  | .sub r x k => Sys2Proof.Machine.execSub r x k s
  | .mul r x k => Sys2Proof.Machine.execMul r x k s
  | .div r x k => Sys2Proof.Machine.execDiv r x k s
  | .bor r x k => Sys2Proof.Machine.execBor r x k s
  | .band r x k => Sys2Proof.Machine.execBand r x k s
  | .shl r x k => Sys2Proof.Machine.execShl r x k s
  | .shr r x k => Sys2Proof.Machine.execShr r x k s
  | .inDec x k => Sys2Proof.Machine.execInDec x k s
  | .inChr x k => Sys2Proof.Machine.execInChr x k s
  | .outDec x k => Sys2Proof.Machine.execOutDec x k s
  | .outChr x k => Sys2Proof.Machine.execOutChr x k s
  | .halt v k => Sys2Proof.Machine.execHalt v k s
  | .djmp x k => Sys2Proof.Machine.execDjmp x k s
  | .jrel x k => Sys2Proof.Machine.execJrel x k s
  | .jmp x k => Sys2Proof.Machine.execJmp x k s
  | .brz r x k => Sys2Proof.Machine.execBrz r x k s
  | .brn r x k => Sys2Proof.Machine.execBrn r x k s
  | .brs r x k => Sys2Proof.Machine.execBrs r x k s
  | .nop op r x resv k => Sys2Proof.Machine.execNop op r x resv k s

end Sys2Proof.Machine
end

