-- ==== Sys2Proof/Machine/Cycle.lean ====
section
/-! DEFINITION. The parts of one cycle (41_cycle.md R170 to R180), which `step` puts together. -/

namespace Sys2Proof.Machine

/-- The start of a cycle: the counter goes up (R171), and no condition and no wait is recorded for it yet. -/
def State.startCycle (s : State) : State := { s with count := s.count + 1, warning := none, wait := none }

/-- The ExecutionTrace record of a cycle (60_exceptions.md R340): `pre` is the state in which the body started, `post`
the one in which it ended (log 11). -/
def traceRecord (f : Fetched) (pre post : State) : TraceRecord where
  cycle := post.count
  fetched := f
  instr := decode f.word
  regsBefore := pre.regs
  pcBefore := pre.pc
  regsAfter := post.regs
  pcAfter := post.pc
  operand := (pre.operandAddress (decode f.word)).map fun a =>
    ⟨a, (pre.memRead a).toOption, (post.memRead a).toOption⟩
  warning := post.warning

/-- A completed cycle emits its record (R340), and no cycle is held any more. -/
def State.completeCycle (f : Fetched) (pre post : State) : State :=
  { post with fetched := none }.emitTrace (.record (traceRecord f pre post))

/-- The end of a run: the full-state dump (R342). -/
def State.endRun (s : State) : State := s.emitTrace (.dump s.fullDump)

/-- How a cycle ends after its body (41_cycle.md R176 to R179): held, completed, completed and halted, or aborted (an
aborted cycle emits no record: log 9). -/
def finishCycle (f : Fetched) (pre post : State) : State :=
  match post.run with
  | .running =>
    match post.wait with
    | some _ => { post with fetched := some f }
    | none => State.completeCycle f pre post
  | .halted => (State.completeCycle f pre post).endRun
  | .aborted _ => { post with fetched := none }.endRun

/-- Decode the fetched Word, run the body, end the cycle (R174, R175). -/
def runBody (f : Fetched) (s : State) : Host.Outcome State Fault Refusal :=
  match exec (decode f.word) s with
  | .next t => .next (finishCycle f s t)
  | .fault e => .fault e
  | .refused e => .refused e

/-- One cycle from its start (R170): count, check the limit before the fetch (R171), fetch (R172), increment the PC
(R173), run the body. -/
def cycle (s : State) : Host.Outcome State Fault Refusal :=
  let t := s.startCycle
  if t.count > Config.instrLimit then .next (t.abort .instructionLimitExceeded).endRun
  else runBody ⟨t.pc, t.fetch⟩ t.incrementPC

/-- The next thing a running block does: resume the cycle that is held, without a new count (R179), or start one. -/
def runStep (s : State) : Host.Outcome State Fault Refusal :=
  match s.fetched with
  | some f => runBody f s
  | none => cycle s

/-- A state whose next step starts a cycle that fetches the Word of the bits `w` at the PC: running, no cycle held, and
the counter below the limit (log 14). -/
def State.placeWord (s : State) (w : Nat) : State :=
  { s with
    mem := s.mem.write s.pc.toNat (BitVec.ofNat 20 w)
    run := .running
    wait := none
    fetched := none
    count := if s.count < Config.instrLimit then s.count else 0 }

end Sys2Proof.Machine
end

