-- ==== Sys2Proof/Machine/Step.lean ====
section
/-! DEFINITION. One step of the machine. -/

namespace Sys2Proof.Machine

/-- One architectural step: one cycle, or one resumption of a held cycle (41_cycle.md R170, R179; log 7). Only `Running`
has a next cycle; in a terminal state nothing changes any more (10_state.md R43, D17; log 8). -/
def step (s : State) : Host.Outcome State Fault Refusal :=
  match s.run with
  | .running => runStep s
  | .halted | .aborted _ => .next s

/-- `s` with the instruction whose bits are `w` where the next step fetches it (log 14). -/
def State.withFetchWord (s : State) (_nbits w : Nat) : State := s.placeWord w

end Sys2Proof.Machine
end

