-- ==== Sys2Proof/Machine/Boot.lean ====
section
/-! DEFINITION. How a run starts from a MemoryImage (00_scope.md R21, 70_reset_and_hazards.md R360 to R365). -/

namespace Sys2Proof.Machine

/-- The loader's MemoryImage (R21). The fields are plain numbers, so that an image that breaks the launch premise can be
written down and refused (R362; log 15). `words` is the map from Address to Word. -/
structure Image where
  execStart : Nat
  loadStart : Nat
  size : Int
  name : String
  words : List (Nat × Word)
deriving DecidableEq, Repr

/-- Every address of the word map is in 0..255 and appears once (R362). -/
def Image.wordsLegal : List (Nat × Word) → Bool
  | [] => true
  | (a, _) :: ws => decide (a < Config.memWords) && ws.all (fun p => p.1 != a) && Image.wordsLegal ws

/-- The launch premise (R362), with `loadStart` and `execStart` Addresses, as the image port has them (R21). -/
def Image.premise (img : Image) : Bool :=
  decide ((img.loadStart : Int) + img.size ≤ (Config.memWords : Int)) &&
    decide (img.loadStart < Config.memWords) && decide (img.execStart < Config.memWords) &&
    Image.wordsLegal img.words

/-- `loadImage` writes every (address, Word) pair, with no bounds check (20_memory.md R75). -/
def loadImage (m : Memory) : List (Nat × Word) → Memory
  | [] => m
  | (a, v) :: ws => loadImage (m.write a v) ws

/-- Start a run: an image that breaks the premise is refused, any other gives the start state (R360, R362). `regInit` is
the OPEN parameter REG_INIT (D4; log 2); `input` and `outAnswers` are the host's side of the channel (log 4, log 6). -/
def boot (regInit : RegFile) (img : Image) (input : List InAnswer) (outAnswers : List ChanAnswer) :
    Host.Outcome State Fault Refusal :=
  if img.premise then
    .next (.start regInit (BitVec.ofNat 8 img.execStart) (loadImage [] img.words) input outAnswers)
  else .refused .badImage

/-- The image that places nothing (log 3). -/
def Image.empty : Image := ⟨0, 0, 0, "", []⟩

end Sys2Proof.Machine
end

