-- ==== Sys2Proof/Safety.lean ====
section
/-! DEFINITION. The terms the statements use: terminal and waiting states, the invariant of the machine, and the shapes
of channel input. -/

namespace Sys2Proof.Machine

/-- The run has ended (10_state.md R43, 41_cycle.md R180). -/
abbrev State.terminal (s : State) : Prop := s.run ≠ .running

/-- A cycle is held, waiting for input (41_cycle.md R179). -/
abbrev State.held (s : State) : Prop := s.fetched ≠ none

/-- A held body is an input operation's, and what it has taken so far is part of a token (R179, 45_io.md R262). -/
def heldBody : Instr → Option (List Byte) → Bool
  | .inDec _ _, some tok => tok.all fun b => !isSeparator b
  | .inChr _ _, some tok => tok.isEmpty
  | _, _ => false

/-- The state after `n` steps: `Host.Core.run` of the machine, over its own `step`. -/
def runSteps : Nat → State → Host.Outcome State Fault Refusal
  | 0, s => .next s
  | n + 1, s =>
    match step s with
    | .next t => runSteps n t
    | .fault e => .fault e
    | .refused e => .refused e

/-- A held cycle belongs to a running block, its Word is the one at its fetch address, and the PC is that address plus
one; with no cycle held, no body waits (41_cycle.md R173, R179). -/
def State.heldOk (s : State) : Bool :=
  match s.fetched with
  | none => decide (s.wait = none)
  | some f =>
    decide (s.run = .running ∧ f.word = s.mem.read f.addr.toNat ∧ s.pc = f.addr + 1) &&
      heldBody (decode f.word) s.wait

/-- The counter is at most 200, and 201 exactly in the state that passing the limit leaves (41_cycle.md R171). -/
def State.countOk (s : State) : Bool :=
  decide (if s.run = .aborted .instructionLimitExceeded then s.count = Config.instrLimit + 1
    else s.count ≤ Config.instrLimit)

/-- A decimal output event carries a value in [-2^19, 2^19-1] (00_scope.md R23). -/
def OutEvent.inRange : OutEvent → Bool
  | .outDec v => isRepresentable v
  | .outByte _ => true

/-- The invariant of the machine: memory in canonical form, the counter within its bound, a held cycle coherent, and
every output value in range. -/
def State.inv (s : State) : Bool :=
  s.mem.wf && s.countOk && s.heldOk && s.output.all OutEvent.inRange

/-- Channel input that answers the bytes `bs`, each consumed without error. -/
abbrev okBytes (bs : List Byte) : List InAnswer := bs.map fun b => .byte b .ok

/-- The input that ends a token: EOF or a separator (45_io.md R261). -/
def endsToken : List InAnswer → Bool
  | .eof :: _ => true
  | .byte b _ :: _ => isSeparator b
  | _ => false

/-- The state in an outcome, if it is a next state. -/
def nextState? : Host.Outcome State Fault Refusal → Option State
  | .next s => some s
  | .fault _ => none
  | .refused _ => none

end Sys2Proof.Machine
end

