-- ==== Sys2Proof/Certificates/Slice0/Obligations.lean ====
section
/-! DEFINITION. The statements for the provers. An instruction's statement gives its row of the opcode table and, for every
state and every operand, the next state of each case of its rule; what a record update does not name is unchanged.
`s.regs.set r v` is "x[r] <- v" (10_state.md R31), `s.mem.write a v` is "M[a] <- v" (20_memory.md R62). -/

open Sys2Proof Sys2Proof.Machine

/-! ### Encoding -/

/-- 30_encoding.md R92, R96: decoding an encoded well-formed instruction gives it back, with every operand. -/
def Obligations.DecodeEncodeWellFormed : Prop :=
  ∀ i : Instr, i.wellFormed = true → decode (encode i) = i

/-- 30_encoding.md R96: every one of the 2^20 Words decodes to a well-formed instruction, and no bit of it is lost. -/
def Obligations.EncodeDecodeEveryWord : Prop :=
  ∀ w : Word, (decode w).wellFormed = true ∧ encode (decode w) = w

/-- 30_encoding.md R93, R94, R95: the opcode map, the sub-operations of IO and BR, and the reserved-bit rule. -/
def Obligations.DecodingFollowsTheOpcodeMap : Prop :=
  ∀ w : Word,
    let r := regOf (w.extractLsb' 14 2)
    let x := regOf (w.extractLsb' 12 2)
    let k : Addr := w.extractLsb' 0 8
    (w &&& 0xF0F00#20 = 0x00000#20 → decode w = .ld r x k) ∧
    (w &&& 0xF0F00#20 = 0x10000#20 → decode w = .ldi r x k) ∧
    (w &&& 0xF0F00#20 = 0x20000#20 → decode w = .st r x k) ∧
    (w &&& 0xF0F00#20 = 0x30000#20 → decode w = .add r x k) ∧
    (w &&& 0xF0F00#20 = 0x40000#20 → decode w = .sub r x k) ∧
    (w &&& 0xF0F00#20 = 0x50000#20 → decode w = .mul r x k) ∧
    (w &&& 0xF0F00#20 = 0x60000#20 → decode w = .div r x k) ∧
    (w &&& 0xF0F00#20 = 0x70000#20 → decode w = .bor r x k) ∧
    (w &&& 0xF0F00#20 = 0x80000#20 → decode w = .band r x k) ∧
    (w &&& 0xF0F00#20 = 0x90000#20 → decode w = .shl r x k) ∧
    (w &&& 0xF0F00#20 = 0xA0000#20 → decode w = .shr r x k) ∧
    (w &&& 0xFCF00#20 = 0xB0000#20 → decode w = .inDec x k) ∧
    (w &&& 0xFCF00#20 = 0xB4000#20 → decode w = .inChr x k) ∧
    (w &&& 0xFCF00#20 = 0xB8000#20 → decode w = .outDec x k) ∧
    (w &&& 0xFCF00#20 = 0xBC000#20 → decode w = .outChr x k) ∧
    (w &&& 0xFCF00#20 = 0xC0000#20 → decode w = .halt (verbosityOf (w.extractLsb' 12 2)) k) ∧
    (w &&& 0xFCF00#20 = 0xC4000#20 → decode w = .djmp x k) ∧
    (w &&& 0xFCF00#20 = 0xC8000#20 → decode w = .jrel x k) ∧
    (w &&& 0xFCF00#20 = 0xCC000#20 → decode w = .jmp x k) ∧
    (w &&& 0xF0F00#20 = 0xD0000#20 → decode w = .brz r x k) ∧
    (w &&& 0xF0F00#20 = 0xE0000#20 → decode w = .brn r x k) ∧
    (w &&& 0xF0F00#20 = 0xF0000#20 → decode w = .brs r x k) ∧
    (w &&& 0x00F00#20 ≠ 0 → decode w = .nop (w.extractLsb' 16 4) r x (w.extractLsb' 8 4) k)

/-- The decode vectors of 95_test_vectors.md Part 3. -/
def Obligations.SpecWordsDecode : Prop :=
  decode 0x00000 = .ld .r0 .r0 0 ∧ decode 0x10005 = .ldi .r0 .r0 5 ∧ decode 0x800FF = .band .r0 .r0 255 ∧
  decode 0xB6000 = .inChr .r2 0 ∧ decode 0xBD000 = .outChr .r1 0 ∧ decode 0xC0000 = .halt .none 0 ∧
  decode 0xC3000 = .halt .both 0 ∧ decode 0xCF000 = .jmp .r3 0 ∧ decode 0xFC020 = .brs .r3 .r0 0x20 ∧
  decode 0xFF0FF = .brs .r3 .r3 255 ∧ decode 0x10105 = .nop 1 .r0 .r0 1 5 ∧ decode 0x00800 = .nop 0 .r0 .r0 8 0 ∧
  decode 0x7FFFF = .nop 7 .r3 .r3 15 255 ∧ decode 0xFFFFF = .nop 15 .r3 .r3 15 255

/-! ### Load and store -/

/-- 42_load_store.md R200. -/
def Obligations.LdLoadsOrWarns : Prop :=
  ∀ (r x : Reg) (k : Addr) (s : State),
    encode (.ld r x k) &&& 0xF0F00#20 = 0x00000#20 ∧
    (∀ a : Nat, a < 256 → s.sxInt x k = a →
      exec (.ld r x k) s = .next { s with regs := s.regs.set r (s.mem.read a) }) ∧
    (s.sxInt x k < 0 ∨ 256 ≤ s.sxInt x k →
      exec (.ld r x k) s = .next { s with warning := some (.illegalAddress (s.sxInt x k)) })

/-- 42_load_store.md R201. -/
def Obligations.LdiLoadsTheOperandValue : Prop :=
  ∀ (r x : Reg) (k : Addr) (s : State),
    encode (.ldi r x k) &&& 0xF0F00#20 = 0x10000#20 ∧
    exec (.ldi r .r0 k) s = .next { s with regs := s.regs.set r (k.setWidth 20) } ∧
    (x ≠ .r0 → exec (.ldi r x k) s = .next { s with regs := s.regs.set r (k.setWidth 20 + s.regs.get x) })

/-- 42_load_store.md R202. -/
def Obligations.StStoresOrWarns : Prop :=
  ∀ (r x : Reg) (k : Addr) (s : State),
    encode (.st r x k) &&& 0xF0F00#20 = 0x20000#20 ∧
    (∀ a : Nat, a < 256 → s.sxInt x k = a →
      exec (.st r x k) s = .next { s with mem := s.mem.write a (s.regs.get r) }) ∧
    (s.sxInt x k < 0 ∨ 256 ≤ s.sxInt x k →
      exec (.st r x k) s = .next { s with warning := some (.illegalAddress (s.sxInt x k)) })

/-! ### Arithmetic and logic -/

/-- 43_arith_logic.md R220: the sum is taken modulo 2^20. -/
def Obligations.AddAddsOrWarns : Prop :=
  ∀ (r x : Reg) (k : Addr) (s : State),
    encode (.add r x k) &&& 0xF0F00#20 = 0x30000#20 ∧
    (∀ a : Nat, a < 256 → s.sxInt x k = a →
      exec (.add r x k) s = .next { s with regs := s.regs.set r (s.regs.get r + s.mem.read a) }) ∧
    (s.sxInt x k < 0 ∨ 256 ≤ s.sxInt x k →
      exec (.add r x k) s = .next { s with warning := some (.illegalAddress (s.sxInt x k)) })

/-- 43_arith_logic.md R221. -/
def Obligations.SubSubtractsOrWarns : Prop :=
  ∀ (r x : Reg) (k : Addr) (s : State),
    encode (.sub r x k) &&& 0xF0F00#20 = 0x40000#20 ∧
    (∀ a : Nat, a < 256 → s.sxInt x k = a →
      exec (.sub r x k) s = .next { s with regs := s.regs.set r (s.regs.get r - s.mem.read a) }) ∧
    (s.sxInt x k < 0 ∨ 256 ≤ s.sxInt x k →
      exec (.sub r x k) s = .next { s with warning := some (.illegalAddress (s.sxInt x k)) })

/-- 43_arith_logic.md R222. -/
def Obligations.MulMultipliesOrWarns : Prop :=
  ∀ (r x : Reg) (k : Addr) (s : State),
    encode (.mul r x k) &&& 0xF0F00#20 = 0x50000#20 ∧
    (∀ a : Nat, a < 256 → s.sxInt x k = a →
      exec (.mul r x k) s = .next { s with regs := s.regs.set r (s.regs.get r * s.mem.read a) }) ∧
    (s.sxInt x k < 0 ∨ 256 ≤ s.sxInt x k →
      exec (.mul r x k) s = .next { s with warning := some (.illegalAddress (s.sxInt x k)) })

/-- 43_arith_logic.md R223: the quotient truncated toward zero; the address is checked before the divisor. -/
def Obligations.DivDividesOrWarns : Prop :=
  ∀ (r x : Reg) (k : Addr) (s : State),
    encode (.div r x k) &&& 0xF0F00#20 = 0x60000#20 ∧
    (∀ a : Nat, a < 256 → s.sxInt x k = a →
      (s.mem.read a ≠ 0 → exec (.div r x k) s = .next { s with
        regs := s.regs.set r (BitVec.ofInt 20 ((s.regs.get r).toInt.tdiv (s.mem.read a).toInt)) }) ∧
      (s.mem.read a = 0 → exec (.div r x k) s = .next { s with warning := some .divisionByZero })) ∧
    (s.sxInt x k < 0 ∨ 256 ≤ s.sxInt x k →
      exec (.div r x k) s = .next { s with warning := some (.illegalAddress (s.sxInt x k)) })

/-- 43_arith_logic.md R224. -/
def Obligations.OrOrsOrWarns : Prop :=
  ∀ (r x : Reg) (k : Addr) (s : State),
    encode (.bor r x k) &&& 0xF0F00#20 = 0x70000#20 ∧
    (∀ a : Nat, a < 256 → s.sxInt x k = a →
      exec (.bor r x k) s = .next { s with regs := s.regs.set r (s.regs.get r ||| s.mem.read a) }) ∧
    (s.sxInt x k < 0 ∨ 256 ≤ s.sxInt x k →
      exec (.bor r x k) s = .next { s with warning := some (.illegalAddress (s.sxInt x k)) })

/-- 43_arith_logic.md R225. -/
def Obligations.AndAndsOrWarns : Prop :=
  ∀ (r x : Reg) (k : Addr) (s : State),
    encode (.band r x k) &&& 0xF0F00#20 = 0x80000#20 ∧
    (∀ a : Nat, a < 256 → s.sxInt x k = a →
      exec (.band r x k) s = .next { s with regs := s.regs.set r (s.regs.get r &&& s.mem.read a) }) ∧
    (s.sxInt x k < 0 ∨ 256 ≤ s.sxInt x k →
      exec (.band r x k) s = .next { s with warning := some (.illegalAddress (s.sxInt x k)) })

/-! ### Shifts -/

/-- 44_shift.md R250. -/
def Obligations.ShlShiftsOrWarns : Prop :=
  ∀ (r x : Reg) (k : Addr) (s : State),
    encode (.shl r x k) &&& 0xF0F00#20 = 0x90000#20 ∧
    (∀ n : Nat, n ≤ 19 → s.sxInt x k = n →
      exec (.shl r x k) s = .next { s with regs := s.regs.set r (s.regs.get r <<< n) }) ∧
    (s.sxInt x k < 0 ∨ 19 < s.sxInt x k →
      exec (.shl r x k) s = .next { s with warning := some (.invalidShiftAmount (s.sxInt x k)) })

/-- 44_shift.md R251: the result rounds toward minus infinity (the divisor is positive, so `/` is the floor). -/
def Obligations.ShrShiftsOrWarns : Prop :=
  ∀ (r x : Reg) (k : Addr) (s : State),
    encode (.shr r x k) &&& 0xF0F00#20 = 0xA0000#20 ∧
    (∀ n : Nat, n ≤ 19 → s.sxInt x k = n →
      exec (.shr r x k) s = .next { s with
        regs := s.regs.set r (BitVec.ofInt 20 ((s.regs.get r).toInt / 2 ^ n)) }) ∧
    (s.sxInt x k < 0 ∨ 19 < s.sxInt x k →
      exec (.shr r x k) s = .next { s with warning := some (.invalidShiftAmount (s.sxInt x k)) })

/-! ### Input and output -/

/-- 45_io.md R262. The input of a fresh body is separators, then token bytes, then the rest: what the rest is decides how
the body ends. (`UnansweredChannelCalls` covers input that ends before the token does.) That the item whose peek or advance
answers Err stays at the head of the input is the model's choice (log 5). -/
def Obligations.InDecReadsATokenOrStops : Prop :=
  ∀ (x : Reg) (k : Addr) (s : State) (seps tok : List Byte) (rest : List InAnswer),
    (encode (.inDec x k) &&& 0xFCF00#20 = 0xB0000#20) ∧
    (seps.all isSeparator = true → (tok.all fun b => !isSeparator b) = true → s.wait = none →
      s.input = okBytes seps ++ okBytes tok ++ rest →
      (tok ≠ [] → endsToken rest = true →
        (∀ (v : Word) (a : Nat), tokenValue tok = some v → a < 256 → s.sxInt x k = a →
          exec (.inDec x k) s = .next { s with input := rest, mem := s.mem.write a v }) ∧
        (∀ v : Word, tokenValue tok = some v → s.sxInt x k < 0 ∨ 256 ≤ s.sxInt x k →
          exec (.inDec x k) s = .next { s with
            input := rest, warning := some (.illegalAddress (s.sxInt x k)) }) ∧
        (tokenValue tok = none →
          exec (.inDec x k) s = .next { s with input := rest, warning := some (.malformedNumber tok) })) ∧
      (tok = [] → ∀ l, rest = .eof :: l →
        exec (.inDec x k) s = .next { s with input := rest, run := .aborted .endOfInput }) ∧
      (∀ l, rest = .err :: l →
        exec (.inDec x k) s = .next { s with input := rest, run := .aborted .illegalIO }) ∧
      (∀ b l, rest = .byte b .err :: l → (isSeparator b = true → tok = []) →
        exec (.inDec x k) s = .next { s with input := rest, run := .aborted .illegalIO }))

/-- 45_io.md R263: the byte goes to bits 7..0, bits 19..8 are kept. (`UnansweredChannelCalls` covers empty input.) That the
item whose peek or advance answers Err stays at the head of the input is the model's choice (log 5). -/
def Obligations.InChrReadsAByteOrStops : Prop :=
  ∀ (x : Reg) (k : Addr) (s : State) (b : Byte) (l : List InAnswer),
    encode (.inChr x k) &&& 0xFCF00#20 = 0xB4000#20 ∧
    (s.input = .byte b .ok :: l → exec (.inChr x k) s = .next { s with
      input := l, wait := none, regs := s.regs.set x ((s.regs.get x).extractLsb' 8 12 ++ b) }) ∧
    (s.input = .eof :: l →
      exec (.inChr x k) s = .next { s with wait := none, run := .aborted .endOfInput }) ∧
    (s.input = .err :: l → exec (.inChr x k) s = .next { s with wait := none, run := .aborted .illegalIO }) ∧
    (s.input = .byte b .err :: l →
      exec (.inChr x k) s = .next { s with wait := none, run := .aborted .illegalIO })

/-- 45_io.md R264. (`UnansweredChannelCalls` covers a call with no answer listed.) That a call which answers Err adds no
event to the output is the model's choice (log 6). -/
def Obligations.OutDecEmitsOrWarnsOrStops : Prop :=
  ∀ (x : Reg) (k : Addr) (s : State) (l : List ChanAnswer),
    encode (.outDec x k) &&& 0xFCF00#20 = 0xB8000#20 ∧
    (∀ a : Nat, a < 256 → s.sxInt x k = a →
      (s.outAnswers = .ok :: l → exec (.outDec x k) s = .next { s with
        outAnswers := l, output := s.output ++ [.outDec (s.mem.read a).toInt] }) ∧
      (s.outAnswers = .err :: l →
        exec (.outDec x k) s = .next { s with outAnswers := l, run := .aborted .illegalIO })) ∧
    (s.sxInt x k < 0 ∨ 256 ≤ s.sxInt x k →
      exec (.outDec x k) s = .next { s with warning := some (.illegalAddress (s.sxInt x k)) })

/-- 45_io.md R265: the byte written is bits 19..12. (`UnansweredChannelCalls` covers a call with no answer listed.) That a
call which answers Err adds no event to the output is the model's choice (log 6). -/
def Obligations.OutChrEmitsOrStops : Prop :=
  ∀ (x : Reg) (k : Addr) (s : State) (l : List ChanAnswer),
    encode (.outChr x k) &&& 0xFCF00#20 = 0xBC000#20 ∧
    (s.outAnswers = .ok :: l → exec (.outChr x k) s = .next { s with
      outAnswers := l, output := s.output ++ [.outByte ((s.regs.get x).extractLsb' 12 8)] }) ∧
    (s.outAnswers = .err :: l →
      exec (.outChr x k) s = .next { s with outAnswers := l, run := .aborted .illegalIO })

/-- The model's choices for a channel call whose answer State does not list: an input call waits, the body keeping the
token bytes it has taken (logs 4 and 7, after 45_io.md R260 and 41_cycle.md R179); an output call succeeds (log 6). -/
def Obligations.UnansweredChannelCalls : Prop :=
  ∀ (x : Reg) (k : Addr) (s : State),
    (∀ seps tok : List Byte, seps.all isSeparator = true → (tok.all fun b => !isSeparator b) = true → s.wait = none →
      s.input = okBytes seps ++ okBytes tok →
      exec (.inDec x k) s = .next { s with input := [], wait := some tok }) ∧
    (s.input = [] → exec (.inChr x k) s = .next { s with wait := some [] }) ∧
    (s.outAnswers = [] →
      (∀ a : Nat, a < 256 → s.sxInt x k = a →
        exec (.outDec x k) s = .next { s with output := s.output ++ [.outDec (s.mem.read a).toInt] }) ∧
      exec (.outChr x k) s = .next { s with
        output := s.output ++ [.outByte ((s.regs.get x).extractLsb' 12 8)] })

/-! ### Control transfer -/

/-- 46_control.md R290: the x field is 0 for none, 1 for memory, 2 for registers, 3 for both. The register part of a dump
holds the PC too (log 10). -/
def Obligations.HaltDumpsAndHalts : Prop :=
  ∀ (v : Verbosity) (k : Addr) (s : State),
    encode (.halt v k) &&& 0xFCF00#20 = 0xC0000#20 ∧
    encode (.halt .none k) &&& 0xFFF00#20 = 0xC0000#20 ∧ encode (.halt .memory k) &&& 0xFFF00#20 = 0xC1000#20 ∧
    encode (.halt .registers k) &&& 0xFFF00#20 = 0xC2000#20 ∧ encode (.halt .both k) &&& 0xFFF00#20 = 0xC3000#20 ∧
    exec (.halt .none k) s = .next { s with run := .halted } ∧
    exec (.halt .memory k) s = .next { s with run := .halted, trace := s.trace ++ [.dump ⟨none, some s.mem⟩] } ∧
    exec (.halt .registers k) s = .next { s with
      run := .halted, trace := s.trace ++ [.dump ⟨some ⟨s.regs, s.pc⟩, none⟩] } ∧
    exec (.halt .both k) s = .next { s with
      run := .halted, trace := s.trace ++ [.dump ⟨some ⟨s.regs, s.pc⟩, some s.mem⟩] }

/-- 46_control.md R291: the dump comes first, and is emitted whether or not the jump is taken. -/
def Obligations.DjmpDumpsAndJumpsOrWarns : Prop :=
  ∀ (x : Reg) (k : Addr) (s : State),
    encode (.djmp x k) &&& 0xFCF00#20 = 0xC4000#20 ∧
    ((s.sx x k).toInt < 256 → exec (.djmp x k) s = .next { s with
      trace := s.trace ++ [.dump ⟨some ⟨s.regs, s.pc⟩, some s.mem⟩], pc := (s.sx x k).setWidth 8 }) ∧
    (256 ≤ (s.sx x k).toInt → exec (.djmp x k) s = .next { s with
      trace := s.trace ++ [.dump ⟨some ⟨s.regs, s.pc⟩, some s.mem⟩],
      warning := some (.illegalAddress (s.sx x k).toInt) })

/-- 46_control.md R292: the base is PC', which is `s.pc` in a body. -/
def Obligations.JrelJumpsOrWarns : Prop :=
  ∀ (x : Reg) (k : Addr) (s : State),
    encode (.jrel x k) &&& 0xFCF00#20 = 0xC8000#20 ∧
    ((s.pc.setWidth 20 + s.sx x k).toInt < 256 →
      exec (.jrel x k) s = .next { s with pc := (s.pc.setWidth 20 + s.sx x k).setWidth 8 }) ∧
    (256 ≤ (s.pc.setWidth 20 + s.sx x k).toInt → exec (.jrel x k) s = .next { s with
      warning := some (.illegalAddress (s.pc.setWidth 20 + s.sx x k).toInt) })

/-- 46_control.md R293. -/
def Obligations.JmpJumpsOrWarns : Prop :=
  ∀ (x : Reg) (k : Addr) (s : State),
    encode (.jmp x k) &&& 0xFCF00#20 = 0xCC000#20 ∧
    ((s.sx x k).toInt < 256 → exec (.jmp x k) s = .next { s with pc := (s.sx x k).setWidth 8 }) ∧
    (256 ≤ (s.sx x k).toInt →
      exec (.jmp x k) s = .next { s with warning := some (.illegalAddress (s.sx x k).toInt) })

/-- 46_control.md R296: a branch not taken checks nothing. -/
def Obligations.BrzBranchesOnZero : Prop :=
  ∀ (r x : Reg) (k : Addr) (s : State),
    encode (.brz r x k) &&& 0xF0F00#20 = 0xD0000#20 ∧
    (s.regs.get r = 0 → (s.sx x k).toInt < 256 →
      exec (.brz r x k) s = .next { s with pc := (s.sx x k).setWidth 8 }) ∧
    (s.regs.get r = 0 → 256 ≤ (s.sx x k).toInt →
      exec (.brz r x k) s = .next { s with warning := some (.illegalAddress (s.sx x k).toInt) }) ∧
    (s.regs.get r ≠ 0 → exec (.brz r x k) s = .next s)

/-- 46_control.md R297: zero does not branch. -/
def Obligations.BrnBranchesOnNegative : Prop :=
  ∀ (r x : Reg) (k : Addr) (s : State),
    encode (.brn r x k) &&& 0xF0F00#20 = 0xE0000#20 ∧
    ((s.regs.get r).toInt < 0 → (s.sx x k).toInt < 256 →
      exec (.brn r x k) s = .next { s with pc := (s.sx x k).setWidth 8 }) ∧
    ((s.regs.get r).toInt < 0 → 256 ≤ (s.sx x k).toInt →
      exec (.brn r x k) s = .next { s with warning := some (.illegalAddress (s.sx x k).toInt) }) ∧
    (0 ≤ (s.regs.get r).toInt → exec (.brn r x k) s = .next s)

/-- 46_control.md R298: the link is written in both cases, and S(X) is the one of before the link. -/
def Obligations.BrsLinksAndJumpsOrWarns : Prop :=
  ∀ (r x : Reg) (k : Addr) (s : State),
    encode (.brs r x k) &&& 0xF0F00#20 = 0xF0000#20 ∧
    ((s.sx x k).toInt < 256 → exec (.brs r x k) s = .next { s with
      regs := s.regs.set r (s.pc.setWidth 20), pc := (s.sx x k).setWidth 8 }) ∧
    (256 ≤ (s.sx x k).toInt → exec (.brs r x k) s = .next { s with
      regs := s.regs.set r (s.pc.setWidth 20), warning := some (.illegalAddress (s.sx x k).toInt) })

/-- 46_control.md R299. -/
def Obligations.NopHasNoEffect : Prop :=
  ∀ (op : BitVec 4) (r x : Reg) (v : BitVec 4) (k : Addr) (s : State),
    (v ≠ 0 → encode (.nop op r x v k) &&& 0x00F00#20 ≠ 0) ∧ exec (.nop op r x v k) s = .next s

/-! ### The arithmetic unit -/

/-- 40_alu.md R121, R122, R123: addition, negation and subtraction wrap modulo 2^20. -/
def Obligations.AddNegateSubtractWrap : Prop :=
  (∀ a b : Word, aluAdd a b = a + b ∧ (aluAdd a b).toNat = (a.toNat + b.toNat) % 2 ^ 20 ∧
    aluAdd a b = wrap20 (signed a + signed b)) ∧
  (∀ a : Word, aluNegate a = (a ^^^ 0xFFFFF#20) + 1#20 ∧ (aluNegate a).toNat = (2 ^ 20 - a.toNat) % 2 ^ 20) ∧
  (∀ a b : Word, aluSubtract a b = aluAdd a (aluNegate b) ∧
    aluSubtract a b = wrap20 ((a.toNat : Int) - b.toNat))

/-- 40_alu.md R124: the product is what the shift-and-add loop over the 20 bits of b gives, and its closed forms. -/
def Obligations.MultiplyIsShiftAndAdd : Prop :=
  ∀ a b : Word, aluMultiply a b = shiftAndAdd a b 20 ∧ aluMultiply a b = wrap20 (a.toNat * b.toNat) ∧
    aluMultiply a b = wrap20 (signed a * signed b)

/-- 40_alu.md R126: division truncates toward zero and wraps, or the divisor is zero. -/
def Obligations.DivideTruncatesTowardZero : Prop :=
  ∀ a b : Word, (b = 0 → aluDivideBy a b = .error .divisionByZero) ∧
    (b ≠ 0 → aluDivideBy a b = .ok (wrap20 ((signed a).tdiv (signed b))))

/-- 40_alu.md R125: the restoring long division on 20 bits gives the floor of the quotient of the magnitudes. -/
def Obligations.RestoringDivisionIsFloor : Prop :=
  ∀ n d : Nat, n < 2 ^ 20 → 0 < d → d < 2 ^ 20 → restoringDivide n d = n / d

/-- 40_alu.md R127, R128: the two shifts against integer arithmetic, and the amounts that fail. -/
def Obligations.ShiftsAgainstIntegers : Prop :=
  (∀ (a : Word) (n : Nat), n ≤ 19 → aluShiftLeft a n = .ok (wrap20 (a.toNat * 2 ^ n))) ∧
  (∀ (a : Word) (n : Nat), n ≤ 19 → aluShiftRight a n = .ok (wrap20 (signed a / 2 ^ n))) ∧
  (∀ (a : Word) (n : Int), n < 0 ∨ 19 < n → aluShiftLeft a n = .error (.invalidShiftAmount n) ∧
    aluShiftRight a n = .error (.invalidShiftAmount n))

/-- 40_alu.md R129, R130, R131: bitwise logic on all 20 bits, the compare-to-zero and the sign test. -/
def Obligations.LogicAndTestsByBits : Prop :=
  (∀ (a b : Word) (i : Nat), i < 20 → (aluAnd a b).getLsbD i = (a.getLsbD i && b.getLsbD i) ∧
    (aluOr a b).getLsbD i = (a.getLsbD i || b.getLsbD i)) ∧
  (∀ a : Word, (isZero a = true ↔ a.toNat = 0) ∧ (isPositive a = true ↔ a.getLsbD 19 = false))

/-- 40_alu.md R135: the laws of the Word operations. -/
def Obligations.WordOperationLaws : Prop :=
  (∀ a b : Word, aluSubtract (aluAdd a b) b = a) ∧
  (∀ a : Word, aluNegate (aluNegate a) = a ∧ (aluNegate a = a ↔ a = 0x00000#20 ∨ a = 0x80000#20)) ∧
  (∀ a b c : Word, aluAdd a b = aluAdd b a ∧ aluAdd (aluAdd a b) c = aluAdd a (aluAdd b c) ∧
    aluMultiply a b = aluMultiply b a ∧ aluMultiply (aluMultiply a b) c = aluMultiply a (aluMultiply b c) ∧
    aluMultiply a 1 = a) ∧
  (∀ a b : Word, aluAdd a b = wrap20 (signed a + signed b) ∧ aluSubtract a b = wrap20 (signed a - signed b) ∧
    aluMultiply a b = wrap20 (signed a * signed b) ∧
    (b ≠ 0 → aluDivideBy a b = .ok (wrap20 ((signed a).tdiv (signed b))))) ∧
  (∀ a b : Word, b ≠ 0 → (aluDivideBy a b = .ok 0 ↔ (signed a).natAbs < (signed b).natAbs)) ∧
  (∀ (a : Word) (n : Nat), n ≤ 19 → aluShiftLeft a n = .ok (aluMultiply a (wrap20 (2 ^ n)))) ∧
  (∀ (a : Word) (n : Nat), n ≤ 19 → aluShiftRight a n = .ok (wrap20 (signed a / 2 ^ n))) ∧
  (∀ (a : Word) (n : Nat), 1 ≤ n → n ≤ 18 → signed a < 0 → ¬((2 : Int) ^ n ∣ signed a) →
    aluShiftRight a n ≠ aluDivideBy a (wrap20 (2 ^ n)))

/-- 40_alu.md R133, R134: decimal and hexadecimal conversions are inverse to their readings. -/
def Obligations.ConversionsRoundTrip : Prop :=
  (∀ w : Word, fromDecimal (signed w) = some w) ∧
  (∀ n : Int, isRepresentable n = true ↔ -524288 ≤ n ∧ n ≤ 524287) ∧
  (∀ (n : Int) (w : Word), fromDecimal n = some w ↔ (-524288 ≤ n ∧ n ≤ 524287) ∧ signed w = n) ∧
  (∀ w : Word, fromHex (toHex w) = some w ∧ (toHex w).length = 5) ∧
  (∀ a : Addr, addrFromHex (addrToHex a) = some a ∧ (addrToHex a).length = 2)

/-- 45_io.md R261: the separators, and the tokens that stand for a Word: one optional sign, one or more digits, and a
value in [-524288, 524287]. `n` is the number the digits spell. -/
def Obligations.TokenGrammar : Prop :=
  (∀ b : Byte, isSeparator b = true ↔ b.toNat ≤ 32 ∨ (127 ≤ b.toNat ∧ b.toNat ≤ 160)) ∧
  (∀ ds : List Nat, ds ≠ [] → (∀ d ∈ ds, d ≤ 9) →
    let n : Nat := ds.foldl (fun acc d => acc * 10 + d) 0
    let digits : List Byte := ds.map fun d => BitVec.ofNat 8 (0x30 + d)
    (n ≤ 524287 → tokenValue digits = some (wrap20 n) ∧ tokenValue (0x2B#8 :: digits) = some (wrap20 n)) ∧
    (524287 < n → tokenValue digits = none ∧ tokenValue (0x2B#8 :: digits) = none) ∧
    (n ≤ 524288 → tokenValue (0x2D#8 :: digits) = some (wrap20 (-(n : Int)))) ∧
    (524288 < n → tokenValue (0x2D#8 :: digits) = none)) ∧
  (∀ tok : List Byte, tokenValue tok ≠ none → ∃ ds : List Nat, ds ≠ [] ∧ (∀ d ∈ ds, d ≤ 9) ∧
    (tok = ds.map (fun d => BitVec.ofNat 8 (0x30 + d)) ∨ tok = 0x2B#8 :: ds.map (fun d => BitVec.ofNat 8 (0x30 + d)) ∨
      tok = 0x2D#8 :: ds.map (fun d => BitVec.ofNat 8 (0x30 + d))))

/-! ### Registers, PC, memory and operand -/

/-- 10_state.md R34, R35: the byte operations on a register, bit by bit; and reading back a register after any is
written: none is hardwired and none aliases another (R31). -/
def Obligations.RegisterByteAccess : Prop :=
  ∀ (s : State) (i : Reg) (b : Byte),
    (∀ (q : Reg) (v : Word), (s.regs.set i v).get q = if q = i then v else s.regs.get q) ∧
    (∀ j : Nat, j < 20 → ((s.storeIOByte i b).regs.get i).getLsbD j =
      if j < 8 then b.getLsbD j else (s.regs.get i).getLsbD j) ∧
    (∀ q : Reg, q ≠ i → (s.storeIOByte i b).regs.get q = s.regs.get q) ∧
    (∀ j : Nat, j < 8 → (s.loadSignificantIOByte i).getLsbD j = (s.regs.get i).getLsbD (12 + j))

/-- 10_state.md R36, R38, R39, R40: the primitives on the PC. -/
def Obligations.PcPrimitives : Prop :=
  ∀ (s : State) (i : Reg) (w : Word),
    s.storePC i = { s with regs := s.regs.set i (BitVec.ofNat 20 s.pc.toNat) } ∧
    s.incrementPC = { s with pc := BitVec.ofNat 8 ((s.pc.toNat + 1) % 256) } ∧
    (w.toInt < 256 → s.setPC w = .ok { s with pc := BitVec.ofNat 8 w.toNat }) ∧
    (256 ≤ w.toInt → s.setPC w = .error (.illegalAddress w.toInt)) ∧
    ((BitVec.ofNat 20 s.pc.toNat + w).toInt < 256 →
      s.indexPC w = .ok { s with pc := BitVec.ofNat 8 (s.pc.toNat + w.toNat) }) ∧
    (256 ≤ (BitVec.ofNat 20 s.pc.toNat + w).toInt →
      s.indexPC w = .error (.illegalAddress (BitVec.ofNat 20 s.pc.toNat + w).toInt))

/-- 20_memory.md R62: reads and writes with their bounds check. A write sets the Word of its own address and of no other,
in every memory of canonical form. -/
def Obligations.MemoryAccessWithBoundsCheck : Prop :=
  ∀ (s : State) (v : Word),
    (∀ a : Int, a < 0 ∨ 256 ≤ a →
      s.memRead a = .error (.illegalAddress a) ∧ s.memWrite a v = .error (.illegalAddress a)) ∧
    (∀ a : Nat, a < 256 → s.memRead a = .ok (s.mem.read a) ∧
      ∃ t, s.memWrite a v = .ok t ∧ t = { s with mem := t.mem } ∧
        (s.mem.wf = true → ∀ b : Nat, t.mem.read b = if b = a then v else s.mem.read b))

/-- Two memories of canonical form that read the same everywhere are the same list, and every write keeps the form (the
model's own form, log 1). -/
def Obligations.CanonicalMemoryIsExtensional : Prop :=
  (∀ m m' : Memory, m.wf = true → m'.wf = true → (∀ a : Nat, a < 256 → m.read a = m'.read a) → m = m') ∧
  (∀ (m : Memory) (a : Nat) (v : Word), m.wf = true → a < 256 → (m.write a v).wf = true)

/-- 30_encoding.md R100, R103: the operand value. -/
def Obligations.OperandValue : Prop :=
  ∀ (s : State) (x : Reg) (k : Addr),
    s.sx .r0 k = BitVec.ofNat 20 k.toNat ∧ (s.sxInt .r0 k = k.toNat) ∧
    (x ≠ .r0 → s.sx x k = BitVec.ofNat 20 (k.toNat + (s.regs.get x).toNat) ∧ s.sxInt x k = (s.sx x k).toInt)

/-- 20_memory.md R73: after a store, the fetch at the address stored to reads the Word stored. -/
def Obligations.FetchSeesTheStore : Prop :=
  ∀ (r x : Reg) (k : Addr) (s : State) (a : Nat), s.mem.wf = true → a < 256 → s.sxInt x k = a →
    ∃ t, exec (.st r x k) s = .next t ∧ ∀ u : State, u.mem = t.mem → u.pc = BitVec.ofNat 8 a → u.fetch = s.regs.get r

/-! ### The cycle -/

/-- 41_cycle.md R170 to R178: a step of a running block that holds no cycle counts, fetches and increments the PC, and runs
exec of the decoded instruction; what it adds after the body depends on how the body ended (logs 7 and 9). The record is
60_exceptions.md R340's, with the PC before the body being PC' and an illegal operand address having no Word (log 11). -/
def Obligations.StepRunsTheDecodedInstruction : Prop :=
  ∀ (s t : State) (i : Instr), s.run = .running → s.fetched = none → s.count < 200 →
    decode (s.mem.read s.pc.toNat) = i →
    let f : Fetched := ⟨s.pc, s.mem.read s.pc.toNat⟩
    let p : State := { s with count := s.count + 1, warning := none, wait := none, pc := s.pc + 1 }
    let operandAddr : Option Int := match i with
      | .ld _ x k | .st _ x k | .add _ x k | .sub _ x k | .mul _ x k | .div _ x k | .bor _ x k | .band _ x k
      | .inDec x k | .outDec x k => some (p.sxInt x k)
      | _ => none
    let wordAt : Memory → Int → Option Word := fun m a => if 0 ≤ a ∧ a < 256 then some (m.read a.toNat) else none
    exec i p = .next t →
    let r : TraceRecord := {
      cycle := s.count + 1, fetched := f, instr := i, regsBefore := s.regs, pcBefore := s.pc + 1,
      regsAfter := t.regs, pcAfter := t.pc,
      operand := operandAddr.map fun a => ⟨a, wordAt s.mem a, wordAt t.mem a⟩, warning := t.warning }
    (t.run = .running → t.wait = none → step s = .next { t with
      fetched := none, trace := t.trace ++ [.record r] }) ∧
    (t.run = .running → t.wait ≠ none → step s = .next { t with fetched := some f }) ∧
    (t.run = .halted → step s = .next { t with
      fetched := none,
      trace := t.trace ++ [.record r] ++ [.dump ⟨some ⟨t.regs, t.pc⟩, some t.mem⟩] }) ∧
    (∀ q, t.run = .aborted q → step s = .next { t with
      fetched := none, trace := t.trace ++ [.dump ⟨some ⟨t.regs, t.pc⟩, some t.mem⟩] })

/-- 41_cycle.md R179: a step that resumes a held cycle runs the held instruction's body again with no new count and no new
fetch, and ends as a cycle does (R176 to R178, 60_exceptions.md R340, R342). The model's: how the cycle is held (log 7), that
an aborted cycle emits no record and the dump of the end of the run comes last (log 9), the record's form (log 11). -/
def Obligations.HeldCycleResumesWithoutANewCount : Prop :=
  ∀ (s t : State) (f : Fetched) (i : Instr), s.run = .running → s.fetched = some f → decode f.word = i →
    let operandAddr : Option Int := match i with
      | .ld _ x k | .st _ x k | .add _ x k | .sub _ x k | .mul _ x k | .div _ x k | .bor _ x k | .band _ x k
      | .inDec x k | .outDec x k => some (s.sxInt x k)
      | _ => none
    let wordAt : Memory → Int → Option Word := fun m a => if 0 ≤ a ∧ a < 256 then some (m.read a.toNat) else none
    exec i s = .next t →
    let r : TraceRecord := {
      cycle := s.count, fetched := f, instr := i, regsBefore := s.regs, pcBefore := s.pc,
      regsAfter := t.regs, pcAfter := t.pc,
      operand := operandAddr.map fun a => ⟨a, wordAt s.mem a, wordAt t.mem a⟩, warning := t.warning }
    t.count = s.count ∧
    (t.run = .running → t.wait = none → step s = .next { t with
      fetched := none, trace := t.trace ++ [.record r] }) ∧
    (t.run = .running → t.wait ≠ none → step s = .next { t with fetched := some f }) ∧
    (t.run = .halted → step s = .next { t with
      fetched := none,
      trace := t.trace ++ [.record r] ++ [.dump ⟨some ⟨t.regs, t.pc⟩, some t.mem⟩] }) ∧
    (∀ q, t.run = .aborted q → step s = .next { t with
      fetched := none, trace := t.trace ++ [.dump ⟨some ⟨t.regs, t.pc⟩, some t.mem⟩] })

/-- 41_cycle.md R171: the cycle that exceeds the limit aborts before its fetch; registers, PC and memory stay. The dump at
the end of the run is R342's; that the aborted cycle emits no record is the model's (log 9). -/
def Obligations.LimitAbortsBeforeTheFetch : Prop :=
  ∀ s : State, s.run = .running → s.fetched = none → 200 ≤ s.count →
    step s = .next { s with
      count := s.count + 1, warning := none, wait := none, run := .aborted .instructionLimitExceeded,
      trace := s.trace ++ [.dump ⟨some ⟨s.regs, s.pc⟩, some s.mem⟩] }

/-- 10_state.md R43, 41_cycle.md R180: in a terminal state nothing changes any more (that a step then answers the same
state is the model's choice, log 8). -/
def Obligations.TerminalStatesStay : Prop :=
  ∀ s : State, s.run ≠ .running → step s = .next s ∧ ∀ n : Nat, runSteps n s = .next s

/-- 30_encoding.md R96, 60_exceptions.md R322: no Word stops the machine: every step of every state answers a next state.
In a terminal state, where R43 gives no next cycle, that a step answers at all is the model's choice (log 8). -/
def Obligations.EveryStepAnswersANextState : Prop :=
  ∀ s : State, ∃ t : State, step s = .next t

/-- The invariant (canonical memory, R44's counter bound, coherent hold, R23's output range) is kept by every step. -/
def Obligations.EveryStepKeepsTheInvariant : Prop :=
  ∀ s t : State, s.inv = true → step s = .next t → t.inv = true

/-- The invariant holds after reset, and the host's deliveries keep it. -/
def Obligations.InvariantHoldsAtReset : Prop :=
  State.reset.inv = true ∧ ∀ (s : State) (l : List InAnswer), s.inv = true → (s.deliver l).inv = true

/-- 41_cycle.md R181, for runs whose input is there when it is read: a run that is never held has ended after at most 201
steps, whatever state it starts from. That the steps after the end still answer, with the same state, is the model's
choice (log 8). -/
def Obligations.RunsNeverHeldEndWithin201Steps : Prop :=
  ∀ s : State,
    (∀ (n : Nat) (t : State), n ≤ 201 → runSteps n s = .next t → t.fetched = none) →
    ∃ t : State, runSteps 201 s = .next t ∧ t.run ≠ .running

/-- 41_cycle.md R179, 45_io.md R260: a held cycle that is answered later ends as it would have with the answers there from
the start (the hold is the model's, log 7). -/
def Obligations.LateInputMakesNoDifference : Prop :=
  ∀ (s t : State) (l : List InAnswer), s.inv = true → step s = .next t → t.fetched ≠ none →
    step (t.deliver l) = step (s.deliver l)

/-! ### What instructions leave alone -/

/-- 20_memory.md R72, R63: in a body only ST and IO r=0 change memory, and only at the operand's address. -/
def Obligations.OnlyStoresChangeMemory : Prop :=
  ∀ (i : Instr) (s t : State) (a : Nat), exec i s = .next t → t.mem.read a ≠ s.mem.read a →
    ∃ (r x : Reg) (k : Addr), (i = .st r x k ∨ i = .inDec x k) ∧ s.sxInt x k = a

/-- 10_state.md R33: the registers an instruction writes. -/
def Obligations.OnlyTheNamedRegisterChanges : Prop :=
  ∀ (i : Instr) (s t : State) (q : Reg), exec i s = .next t → t.regs.get q ≠ s.regs.get q →
    ∃ (x : Reg) (k : Addr), i = .ld q x k ∨ i = .ldi q x k ∨ i = .add q x k ∨ i = .sub q x k ∨ i = .mul q x k ∨
      i = .div q x k ∨ i = .bor q x k ∨ i = .band q x k ∨ i = .shl q x k ∨ i = .shr q x k ∨ i = .brs q x k ∨
      (i = .inChr q k ∧ (t.regs.get q).extractLsb' 8 12 = (s.regs.get q).extractLsb' 8 12)

/-- 41_cycle.md R173, 60_exceptions.md R321: in a body only the control transfers change the PC, and only BR r=0 and the IO
instructions end the run, each in its own way. -/
def Obligations.OnlyTransfersMoveThePcOrEndTheRun : Prop :=
  ∀ (i : Instr) (s t : State), exec i s = .next t →
    (t.pc ≠ s.pc → ∃ (r x : Reg) (k : Addr),
      i = .djmp x k ∨ i = .jrel x k ∨ i = .jmp x k ∨ i = .brz r x k ∨ i = .brn r x k ∨ i = .brs r x k) ∧
    (t.run ≠ s.run → ∃ (v : Verbosity) (x : Reg) (k : Addr),
      (i = .halt v k ∧ t.run = .halted) ∨
      ((i = .inDec x k ∨ i = .inChr x k) ∧ (t.run = .aborted .endOfInput ∨ t.run = .aborted .illegalIO)) ∨
      ((i = .outDec x k ∨ i = .outChr x k) ∧ t.run = .aborted .illegalIO))

/-- 60_exceptions.md R320: which instruction can raise which recoverable condition, and with what recorded. -/
def Obligations.ConditionsAreRaisedByTheirInstructions : Prop :=
  ∀ (i : Instr) (s t : State), exec i s = .next t → t.warning ≠ s.warning →
    ∃ (r x : Reg) (k : Addr),
      (∃ a : Int, t.warning = some (.illegalAddress a) ∧
        (((i = .ld r x k ∨ i = .st r x k ∨ i = .add r x k ∨ i = .sub r x k ∨ i = .mul r x k ∨ i = .div r x k ∨
            i = .bor r x k ∨ i = .band r x k ∨ i = .inDec x k ∨ i = .outDec x k) ∧
            a = s.sxInt x k ∧ (a < 0 ∨ 256 ≤ a)) ∨
          ((i = .djmp x k ∨ i = .jmp x k ∨ i = .brz r x k ∨ i = .brn r x k ∨ i = .brs r x k) ∧
            a = s.sxInt x k ∧ 256 ≤ a) ∨
          (i = .jrel x k ∧ a = (s.pc.setWidth 20 + s.sx x k).toInt ∧ 256 ≤ a))) ∨
      (t.warning = some .divisionByZero ∧ i = .div r x k) ∨
      (∃ n : Int, t.warning = some (.invalidShiftAmount n) ∧ (i = .shl r x k ∨ i = .shr r x k) ∧
        n = s.sxInt x k ∧ (n < 0 ∨ 19 < n)) ∨
      (∃ tok : List Byte, t.warning = some (.malformedNumber tok) ∧ i = .inDec x k ∧ tokenValue tok = none)

/-- 45_io.md, 46_control.md, 10_state.md R44, R46: only IO touches the channel, only BR r=0 and r=1 add to the trace in a
body, and no body touches the counter or the held cycle. -/
def Obligations.OnlyIoTouchesThePorts : Prop :=
  ∀ (i : Instr) (s t : State), exec i s = .next t →
    t.count = s.count ∧ t.fetched = s.fetched ∧
    (t.input ≠ s.input ∨ t.wait ≠ s.wait → ∃ (x : Reg) (k : Addr), i = .inDec x k ∨ i = .inChr x k) ∧
    (t.output ≠ s.output ∨ t.outAnswers ≠ s.outAnswers →
      ∃ (x : Reg) (k : Addr), i = .outDec x k ∨ i = .outChr x k) ∧
    (t.trace ≠ s.trace → ∃ (v : Verbosity) (x : Reg) (k : Addr), i = .halt v k ∨ i = .djmp x k)

/-- 10_state.md R44 and 60_exceptions.md R341: no instruction reads the counter, and the trace port feeds nothing back: a
step from the same state with another trace differs in the trace alone. -/
def Obligations.CounterAndTraceAreNotRead : Prop :=
  (∀ (i : Instr) (s t : State) (n : Nat), exec i s = .next t →
    exec i { s with count := n } = .next { t with count := n }) ∧
  (∀ (s t : State) (l : List TraceEvent), step s = .next t →
    ∃ l' : List TraceEvent, step { s with trace := l } = .next { t with trace := l' })

/-! ### Start of a run -/

/-- 70_reset_and_hazards.md R360, R361, R362, R364: an image that meets the launch premise starts a run in the state R49
gives; any other is refused. The image as plain
numbers is the model's (log 15), and so are the fields of the host's answers, of the condition and of a held cycle, which
start as given or empty (logs 4, 6, 7 and 12). -/
def Obligations.BootStartsTheRunOrRefuses : Prop :=
  ∀ (regInit : RegFile) (img : Image) (input : List InAnswer) (outAnswers : List ChanAnswer),
    let premise : Prop := (img.loadStart : Int) + img.size ≤ 256 ∧ img.loadStart < 256 ∧ img.execStart < 256 ∧
      (∀ p ∈ img.words, p.1 < 256) ∧ (img.words.map Prod.fst).Nodup
    (premise → ∃ t : State, boot regInit img input outAnswers = .next t ∧ t.regs = regInit ∧
      t.pc.toNat = img.execStart ∧ (∀ a : Nat, t.mem.read a = (img.words.lookup a).getD 0) ∧ t.run = .running ∧
      t.count = 0 ∧ t.output = [] ∧ t.trace = [.dump ⟨some ⟨t.regs, t.pc⟩, some t.mem⟩] ∧ t.inv = true ∧
      t.input = input ∧ t.outAnswers = outAnswers ∧ t.warning = none ∧ t.wait = none ∧ t.fetched = none) ∧
    (¬premise → boot regInit img input outAnswers = .refused .badImage)

/-- The model's reset state is the start of a run of the empty image, with registers zero and a silent host: the model's
choices (logs 2, 3, 4 and 6). -/
def Obligations.ResetIsTheStartOfTheEmptyImage : Prop :=
  boot RegFile.zero Image.empty [] [] = .next State.reset ∧ State.reset.pc = 0 ∧ State.reset.mem = [] ∧
    ∀ i : Reg, State.reset.regs.get i = 0
end

