-- ==== Sys2Proof/Laws/Encoding.lean ====
section
/-! SUPPORT. The fields of a packed instruction Word, and the opcode table's masks in terms of the fields. -/

namespace Sys2Proof

theorem Reg.index_lt (r : Reg) : r.index < 4 := by cases r <;> decide

theorem Verbosity.index_lt (v : Verbosity) : v.index < 4 := by cases v <;> decide

section
variable {op r x v : Nat} {k : Addr}

theorem opField_pack (hr : r < 4) (hx : x < 4) (hv : v < 16) :
    opField (pack op r x v k) = BitVec.ofNat 4 op := by
  have := k.isLt
  apply BitVec.eq_of_toNat_eq
  simp only [opField, pack, BitVec.extractLsb'_toNat, BitVec.toNat_ofNat, Nat.shiftRight_eq_div_pow]; omega

theorem rField_pack (hx : x < 4) (hv : v < 16) :
    rField (pack op r x v k) = BitVec.ofNat 2 r := by
  have := k.isLt
  apply BitVec.eq_of_toNat_eq
  simp only [rField, pack, BitVec.extractLsb'_toNat, BitVec.toNat_ofNat, Nat.shiftRight_eq_div_pow]; omega

theorem xField_pack (hv : v < 16) :
    xField (pack op r x v k) = BitVec.ofNat 2 x := by
  have := k.isLt
  apply BitVec.eq_of_toNat_eq
  simp only [xField, pack, BitVec.extractLsb'_toNat, BitVec.toNat_ofNat, Nat.shiftRight_eq_div_pow]; omega

theorem resvField_pack :
    resvField (pack op r x v k) = BitVec.ofNat 4 v := by
  have := k.isLt
  apply BitVec.eq_of_toNat_eq
  simp only [resvField, pack, BitVec.extractLsb'_toNat, BitVec.toNat_ofNat, Nat.shiftRight_eq_div_pow]; omega

theorem sField_pack : sField (pack op r x v k) = k := by
  have := k.isLt
  apply BitVec.eq_of_toNat_eq
  simp only [sField, pack, BitVec.extractLsb'_toNat, BitVec.toNat_ofNat, Nat.shiftRight_eq_div_pow]; omega

end

/-- The mask of the rows with an r-index. -/
theorem and_opMask (w : Word) :
    w &&& 0xF0F00#20 = (opField w).setWidth 20 <<< 16 ||| (resvField w).setWidth 20 <<< 8 := by
  apply BitVec.eq_of_getLsbD_eq
  intro i hi
  have h : i ∈ List.range 20 := by simpa using hi
  fin_cases h <;> simp [opField, resvField]

/-- The mask of the IO and BR rows, which fix the r field too. -/
theorem and_subOpMask (w : Word) :
    w &&& 0xFCF00#20 =
      (opField w).setWidth 20 <<< 16 ||| (rField w).setWidth 20 <<< 14 ||| (resvField w).setWidth 20 <<< 8 := by
  apply BitVec.eq_of_getLsbD_eq
  intro i hi
  have h : i ∈ List.range 20 := by simpa using hi
  fin_cases h <;> simp [opField, rField, resvField]

/-- The reserved bits. -/
theorem and_reservedMask (w : Word) : w &&& 0x00F00#20 = (resvField w).setWidth 20 <<< 8 := by
  apply BitVec.eq_of_getLsbD_eq
  intro i hi
  have h : i ∈ List.range 20 := by simpa using hi
  fin_cases h <;> simp [resvField]

theorem shifted_resv_ne : ∀ v : BitVec 4, v ≠ 0 → v.setWidth 20 <<< 8 ≠ 0#20 := by decide

/-- A row with an r-index: the Word `pack op r x 0 k` has its fixed bits. -/
theorem pack_row {op r x : Nat} {k : Addr} (hop : op < 16) (hr : r < 4) (hx : x < 4) :
    pack op r x 0 k &&& 0xF0F00#20 = BitVec.ofNat 20 (op * 2 ^ 16) := by
  rw [and_opMask, opField_pack hr hx (by omega), resvField_pack]
  interval_cases op <;> rfl

/-- A row of IO or BR: the Word `pack op r x 0 k` has its fixed bits. -/
theorem pack_subOpRow {op r x : Nat} {k : Addr} (hop : op < 16) (hr : r < 4) (hx : x < 4) :
    pack op r x 0 k &&& 0xFCF00#20 = BitVec.ofNat 20 (op * 2 ^ 16 + r * 2 ^ 14) := by
  rw [and_subOpMask, opField_pack hr hx (by omega), rField_pack hx (by omega),
    resvField_pack]
  interval_cases op <;> interval_cases r <;> rfl

end Sys2Proof
end

