-- ==== Sys2Proof/Laws/Memory.lean ====
section
/-! SUPPORT. Memory as a canonical list: reads, writes, and that every memory operation keeps the form. -/

namespace Sys2Proof.Machine

@[simp] theorem Memory.read_nil (a : Nat) : Memory.read [] a = 0 := rfl

theorem Memory.read_cons (k : Nat) (v : Word) (m : Memory) (a : Nat) :
    Memory.read ((k, v) :: m) a = if k = a then v else Memory.read m a := rfl

theorem Memory.wfFrom_cons (lo k : Nat) (v : Word) (m : Memory) :
    Memory.wfFrom lo ((k, v) :: m) = true ↔ (lo ≤ k ∧ k < 256 ∧ v ≠ 0) ∧ Memory.wfFrom (k + 1) m = true := by
  simp [Memory.wfFrom]

theorem Memory.wfFrom_mono {lo lo' : Nat} {m : Memory} (h : lo' ≤ lo) (hm : Memory.wfFrom lo m = true) :
    Memory.wfFrom lo' m = true := by
  cases m with
  | nil => rfl
  | cons p m => obtain ⟨k, v⟩ := p; rw [Memory.wfFrom_cons] at *; exact ⟨⟨by omega, hm.1.2⟩, hm.2⟩

/-- Below the form's lower bound nothing is listed. -/
theorem Memory.read_below {lo a : Nat} {m : Memory} (hm : Memory.wfFrom lo m = true) (h : a < lo) : m.read a = 0 := by
  induction m generalizing lo with
  | nil => rfl
  | cons p m ih =>
    obtain ⟨k, v⟩ := p
    rw [Memory.wfFrom_cons] at hm
    rw [Memory.read_cons, if_neg (by omega), ih hm.2 (by omega)]

/-- A canonical memory lists nothing outside the address space. -/
theorem Memory.read_outside {lo a : Nat} {m : Memory} (hm : Memory.wfFrom lo m = true) (h : 256 ≤ a) :
    m.read a = 0 := by
  induction m generalizing lo with
  | nil => rfl
  | cons p m ih =>
    obtain ⟨k, v⟩ := p
    rw [Memory.wfFrom_cons] at hm
    rw [Memory.read_cons, if_neg (by omega), ih hm.2]

/-- A write leaves every other address alone, in any list. -/
theorem Memory.read_write_ne (m : Memory) {a b : Nat} (v : Word) (h : b ≠ a) : (m.write a v).read b = m.read b := by
  induction m with
  | nil =>
    unfold Memory.write
    split
    · rfl
    · rw [Memory.read_cons, if_neg (by omega)]
  | cons p m ih =>
    obtain ⟨k, w⟩ := p
    unfold Memory.write
    split_ifs <;> simp only [Memory.read_cons, ih] <;> split_ifs <;> first | rfl | omega

/-- A read after a write to the same address gives the Word written. -/
theorem Memory.read_write_same {lo : Nat} {m : Memory} (hm : Memory.wfFrom lo m = true) (a : Nat) (v : Word) :
    (m.write a v).read a = v := by
  induction m generalizing lo with
  | nil =>
    unfold Memory.write
    split
    · simp_all
    · simp [Memory.read_cons]
  | cons p m ih =>
    obtain ⟨k, w⟩ := p
    rw [Memory.wfFrom_cons] at hm
    unfold Memory.write
    split_ifs with h1 h2 h3 h4
    · rw [Memory.read_cons, if_neg (by omega), Memory.read_below hm.2 (by omega), h2]
    · rw [Memory.read_cons, if_pos rfl]
    · rw [Memory.read_below hm.2 (by omega), h4]
    · rw [Memory.read_cons, if_pos rfl]
    · rw [Memory.read_cons, if_neg (by omega), ih hm.2]

/-- A write inside the address space keeps the canonical form. -/
theorem Memory.wfFrom_write {lo a : Nat} {m : Memory} (v : Word) (hm : Memory.wfFrom lo m = true) (hlo : lo ≤ a)
    (ha : a < 256) : Memory.wfFrom lo (m.write a v) = true := by
  induction m generalizing lo with
  | nil =>
    unfold Memory.write
    split
    · rfl
    · rw [Memory.wfFrom_cons]; exact ⟨⟨hlo, ha, by simpa using ‹_›⟩, rfl⟩
  | cons p m ih =>
    obtain ⟨k, w⟩ := p
    have h := (Memory.wfFrom_cons ..).mp hm
    unfold Memory.write
    split_ifs with h1 h2 h3 h4
    · exact hm
    · rw [Memory.wfFrom_cons, Memory.wfFrom_cons]; exact ⟨⟨hlo, ha, h2⟩, ⟨by omega, h.1.2.1, h.1.2.2⟩, h.2⟩
    · exact Memory.wfFrom_mono (by omega) h.2
    · rw [Memory.wfFrom_cons]; exact ⟨⟨hlo, ha, h4⟩, h3 ▸ h.2⟩
    · rw [Memory.wfFrom_cons]; exact ⟨h.1, ih h.2 (by omega)⟩

/-- `Memory.write` keeps the canonical form. -/
theorem Memory.wf_write {a : Nat} {m : Memory} (v : Word) (hm : m.wf = true) (ha : a < 256) :
    (m.write a v).wf = true := Memory.wfFrom_write v hm (Nat.zero_le a) ha

/-- A canonical memory reads back what was written. -/
theorem Memory.read_write {m : Memory} (hm : m.wf = true) (a b : Nat) (v : Word) :
    (m.write a v).read b = if b = a then v else m.read b := by
  split
  · subst b; exact Memory.read_write_same hm a v
  · exact Memory.read_write_ne m v ‹_›

/-- `loadImage` keeps the canonical form for a word map inside the address space. -/
theorem loadImage_wf {m : Memory} {ws : List (Nat × Word)} (hm : m.wf = true) (h : Image.wordsLegal ws = true) :
    (loadImage m ws).wf = true := by
  induction ws generalizing m with
  | nil => exact hm
  | cons p ws ih =>
    obtain ⟨a, v⟩ := p
    simp only [Image.wordsLegal, Bool.and_eq_true, decide_eq_true_eq] at h
    exact ih (Memory.wf_write v hm h.1.1) h.2

/-- A store through the bounds check keeps the canonical form. -/
theorem State.memWrite_wf {s t : State} {a : Int} {v : Word} (hs : s.mem.wf = true) (h : s.memWrite a v = .ok t) :
    t.mem.wf = true := by
  unfold State.memWrite at h
  split at h
  · cases h
    rename_i ha
    exact Memory.wf_write v hs (by simp [legalAddress] at ha; omega)
  · cases h

/-- The memory of the reset state has the canonical form. -/
theorem State.reset_mem_wf : State.reset.mem.wf = true := rfl

end Sys2Proof.Machine
end

