-- ==== Sys2Proof/Laws/State.lean ====
section
/-! SUPPORT. One lemma per field per named update of the state, each true by definition, so that no later proof
unfolds a record update. -/

namespace Sys2Proof.Machine

variable (s p : State) (i : Reg) (v : Word) (a : Addr) (b : Byte) (n : Nat) (w : Warning) (q : RunState)
  (r : AbortReason) (e : TraceEvent) (l : List InAnswer) (o : Option (List Byte)) (f : Fetched)

@[simp] theorem State.setReg_regs : (s.setReg i v).regs = s.regs.set i v := rfl
@[simp] theorem State.setReg_pc : (s.setReg i v).pc = s.pc := rfl
@[simp] theorem State.setReg_mem : (s.setReg i v).mem = s.mem := rfl
@[simp] theorem State.setReg_run : (s.setReg i v).run = s.run := rfl
@[simp] theorem State.setReg_count : (s.setReg i v).count = s.count := rfl
@[simp] theorem State.setReg_input : (s.setReg i v).input = s.input := rfl
@[simp] theorem State.setReg_outAnswers : (s.setReg i v).outAnswers = s.outAnswers := rfl
@[simp] theorem State.setReg_output : (s.setReg i v).output = s.output := rfl
@[simp] theorem State.setReg_warning : (s.setReg i v).warning = s.warning := rfl
@[simp] theorem State.setReg_wait : (s.setReg i v).wait = s.wait := rfl
@[simp] theorem State.setReg_fetched : (s.setReg i v).fetched = s.fetched := rfl
@[simp] theorem State.setReg_trace : (s.setReg i v).trace = s.trace := rfl

@[simp] theorem State.setPcRaw_regs : (s.setPcRaw a).regs = s.regs := rfl
@[simp] theorem State.setPcRaw_pc : (s.setPcRaw a).pc = a := rfl
@[simp] theorem State.setPcRaw_mem : (s.setPcRaw a).mem = s.mem := rfl
@[simp] theorem State.setPcRaw_run : (s.setPcRaw a).run = s.run := rfl
@[simp] theorem State.setPcRaw_count : (s.setPcRaw a).count = s.count := rfl
@[simp] theorem State.setPcRaw_input : (s.setPcRaw a).input = s.input := rfl
@[simp] theorem State.setPcRaw_outAnswers : (s.setPcRaw a).outAnswers = s.outAnswers := rfl
@[simp] theorem State.setPcRaw_output : (s.setPcRaw a).output = s.output := rfl
@[simp] theorem State.setPcRaw_warning : (s.setPcRaw a).warning = s.warning := rfl
@[simp] theorem State.setPcRaw_wait : (s.setPcRaw a).wait = s.wait := rfl
@[simp] theorem State.setPcRaw_fetched : (s.setPcRaw a).fetched = s.fetched := rfl
@[simp] theorem State.setPcRaw_trace : (s.setPcRaw a).trace = s.trace := rfl

@[simp] theorem State.incrementPC_regs : (s.incrementPC).regs = s.regs := rfl
@[simp] theorem State.incrementPC_pc : (s.incrementPC).pc = s.pc + 1 := rfl
@[simp] theorem State.incrementPC_mem : (s.incrementPC).mem = s.mem := rfl
@[simp] theorem State.incrementPC_run : (s.incrementPC).run = s.run := rfl
@[simp] theorem State.incrementPC_count : (s.incrementPC).count = s.count := rfl
@[simp] theorem State.incrementPC_input : (s.incrementPC).input = s.input := rfl
@[simp] theorem State.incrementPC_outAnswers : (s.incrementPC).outAnswers = s.outAnswers := rfl
@[simp] theorem State.incrementPC_output : (s.incrementPC).output = s.output := rfl
@[simp] theorem State.incrementPC_warning : (s.incrementPC).warning = s.warning := rfl
@[simp] theorem State.incrementPC_wait : (s.incrementPC).wait = s.wait := rfl
@[simp] theorem State.incrementPC_fetched : (s.incrementPC).fetched = s.fetched := rfl
@[simp] theorem State.incrementPC_trace : (s.incrementPC).trace = s.trace := rfl

@[simp] theorem State.storePC_regs : (s.storePC i).regs = s.regs.set i (zext20 s.pc) := rfl
@[simp] theorem State.storePC_pc : (s.storePC i).pc = s.pc := rfl
@[simp] theorem State.storePC_mem : (s.storePC i).mem = s.mem := rfl
@[simp] theorem State.storePC_run : (s.storePC i).run = s.run := rfl
@[simp] theorem State.storePC_count : (s.storePC i).count = s.count := rfl
@[simp] theorem State.storePC_input : (s.storePC i).input = s.input := rfl
@[simp] theorem State.storePC_outAnswers : (s.storePC i).outAnswers = s.outAnswers := rfl
@[simp] theorem State.storePC_output : (s.storePC i).output = s.output := rfl
@[simp] theorem State.storePC_warning : (s.storePC i).warning = s.warning := rfl
@[simp] theorem State.storePC_wait : (s.storePC i).wait = s.wait := rfl
@[simp] theorem State.storePC_fetched : (s.storePC i).fetched = s.fetched := rfl
@[simp] theorem State.storePC_trace : (s.storePC i).trace = s.trace := rfl

@[simp] theorem State.storeIOByte_regs : (s.storeIOByte i b).regs = s.regs.set i (withLowByte (s.reg i) b) := rfl
@[simp] theorem State.storeIOByte_pc : (s.storeIOByte i b).pc = s.pc := rfl
@[simp] theorem State.storeIOByte_mem : (s.storeIOByte i b).mem = s.mem := rfl
@[simp] theorem State.storeIOByte_run : (s.storeIOByte i b).run = s.run := rfl
@[simp] theorem State.storeIOByte_count : (s.storeIOByte i b).count = s.count := rfl
@[simp] theorem State.storeIOByte_input : (s.storeIOByte i b).input = s.input := rfl
@[simp] theorem State.storeIOByte_outAnswers : (s.storeIOByte i b).outAnswers = s.outAnswers := rfl
@[simp] theorem State.storeIOByte_output : (s.storeIOByte i b).output = s.output := rfl
@[simp] theorem State.storeIOByte_warning : (s.storeIOByte i b).warning = s.warning := rfl
@[simp] theorem State.storeIOByte_wait : (s.storeIOByte i b).wait = s.wait := rfl
@[simp] theorem State.storeIOByte_fetched : (s.storeIOByte i b).fetched = s.fetched := rfl
@[simp] theorem State.storeIOByte_trace : (s.storeIOByte i b).trace = s.trace := rfl

@[simp] theorem State.setWord_regs : (s.setWord n v).regs = s.regs := rfl
@[simp] theorem State.setWord_pc : (s.setWord n v).pc = s.pc := rfl
@[simp] theorem State.setWord_mem : (s.setWord n v).mem = s.mem.write n v := rfl
@[simp] theorem State.setWord_run : (s.setWord n v).run = s.run := rfl
@[simp] theorem State.setWord_count : (s.setWord n v).count = s.count := rfl
@[simp] theorem State.setWord_input : (s.setWord n v).input = s.input := rfl
@[simp] theorem State.setWord_outAnswers : (s.setWord n v).outAnswers = s.outAnswers := rfl
@[simp] theorem State.setWord_output : (s.setWord n v).output = s.output := rfl
@[simp] theorem State.setWord_warning : (s.setWord n v).warning = s.warning := rfl
@[simp] theorem State.setWord_wait : (s.setWord n v).wait = s.wait := rfl
@[simp] theorem State.setWord_fetched : (s.setWord n v).fetched = s.fetched := rfl
@[simp] theorem State.setWord_trace : (s.setWord n v).trace = s.trace := rfl

@[simp] theorem State.warn_regs : (s.warn w).regs = s.regs := rfl
@[simp] theorem State.warn_pc : (s.warn w).pc = s.pc := rfl
@[simp] theorem State.warn_mem : (s.warn w).mem = s.mem := rfl
@[simp] theorem State.warn_run : (s.warn w).run = s.run := rfl
@[simp] theorem State.warn_count : (s.warn w).count = s.count := rfl
@[simp] theorem State.warn_input : (s.warn w).input = s.input := rfl
@[simp] theorem State.warn_outAnswers : (s.warn w).outAnswers = s.outAnswers := rfl
@[simp] theorem State.warn_output : (s.warn w).output = s.output := rfl
@[simp] theorem State.warn_warning : (s.warn w).warning = some w := rfl
@[simp] theorem State.warn_wait : (s.warn w).wait = s.wait := rfl
@[simp] theorem State.warn_fetched : (s.warn w).fetched = s.fetched := rfl
@[simp] theorem State.warn_trace : (s.warn w).trace = s.trace := rfl

@[simp] theorem State.setRun_regs : (s.setRun q).regs = s.regs := rfl
@[simp] theorem State.setRun_pc : (s.setRun q).pc = s.pc := rfl
@[simp] theorem State.setRun_mem : (s.setRun q).mem = s.mem := rfl
@[simp] theorem State.setRun_run : (s.setRun q).run = q := rfl
@[simp] theorem State.setRun_count : (s.setRun q).count = s.count := rfl
@[simp] theorem State.setRun_input : (s.setRun q).input = s.input := rfl
@[simp] theorem State.setRun_outAnswers : (s.setRun q).outAnswers = s.outAnswers := rfl
@[simp] theorem State.setRun_output : (s.setRun q).output = s.output := rfl
@[simp] theorem State.setRun_warning : (s.setRun q).warning = s.warning := rfl
@[simp] theorem State.setRun_wait : (s.setRun q).wait = s.wait := rfl
@[simp] theorem State.setRun_fetched : (s.setRun q).fetched = s.fetched := rfl
@[simp] theorem State.setRun_trace : (s.setRun q).trace = s.trace := rfl

@[simp] theorem State.abort_regs : (s.abort r).regs = s.regs := rfl
@[simp] theorem State.abort_pc : (s.abort r).pc = s.pc := rfl
@[simp] theorem State.abort_mem : (s.abort r).mem = s.mem := rfl
@[simp] theorem State.abort_run : (s.abort r).run = .aborted r := rfl
@[simp] theorem State.abort_count : (s.abort r).count = s.count := rfl
@[simp] theorem State.abort_input : (s.abort r).input = s.input := rfl
@[simp] theorem State.abort_outAnswers : (s.abort r).outAnswers = s.outAnswers := rfl
@[simp] theorem State.abort_output : (s.abort r).output = s.output := rfl
@[simp] theorem State.abort_warning : (s.abort r).warning = s.warning := rfl
@[simp] theorem State.abort_wait : (s.abort r).wait = s.wait := rfl
@[simp] theorem State.abort_fetched : (s.abort r).fetched = s.fetched := rfl
@[simp] theorem State.abort_trace : (s.abort r).trace = s.trace := rfl

@[simp] theorem State.emitTrace_regs : (s.emitTrace e).regs = s.regs := rfl
@[simp] theorem State.emitTrace_pc : (s.emitTrace e).pc = s.pc := rfl
@[simp] theorem State.emitTrace_mem : (s.emitTrace e).mem = s.mem := rfl
@[simp] theorem State.emitTrace_run : (s.emitTrace e).run = s.run := rfl
@[simp] theorem State.emitTrace_count : (s.emitTrace e).count = s.count := rfl
@[simp] theorem State.emitTrace_input : (s.emitTrace e).input = s.input := rfl
@[simp] theorem State.emitTrace_outAnswers : (s.emitTrace e).outAnswers = s.outAnswers := rfl
@[simp] theorem State.emitTrace_output : (s.emitTrace e).output = s.output := rfl
@[simp] theorem State.emitTrace_warning : (s.emitTrace e).warning = s.warning := rfl
@[simp] theorem State.emitTrace_wait : (s.emitTrace e).wait = s.wait := rfl
@[simp] theorem State.emitTrace_fetched : (s.emitTrace e).fetched = s.fetched := rfl
@[simp] theorem State.emitTrace_trace : (s.emitTrace e).trace = s.trace ++ [e] := rfl

@[simp] theorem State.setInput_regs : (s.setInput l o).regs = s.regs := rfl
@[simp] theorem State.setInput_pc : (s.setInput l o).pc = s.pc := rfl
@[simp] theorem State.setInput_mem : (s.setInput l o).mem = s.mem := rfl
@[simp] theorem State.setInput_run : (s.setInput l o).run = s.run := rfl
@[simp] theorem State.setInput_count : (s.setInput l o).count = s.count := rfl
@[simp] theorem State.setInput_input : (s.setInput l o).input = l := rfl
@[simp] theorem State.setInput_outAnswers : (s.setInput l o).outAnswers = s.outAnswers := rfl
@[simp] theorem State.setInput_output : (s.setInput l o).output = s.output := rfl
@[simp] theorem State.setInput_warning : (s.setInput l o).warning = s.warning := rfl
@[simp] theorem State.setInput_wait : (s.setInput l o).wait = o := rfl
@[simp] theorem State.setInput_fetched : (s.setInput l o).fetched = s.fetched := rfl
@[simp] theorem State.setInput_trace : (s.setInput l o).trace = s.trace := rfl

@[simp] theorem State.deliver_regs : (s.deliver l).regs = s.regs := rfl
@[simp] theorem State.deliver_pc : (s.deliver l).pc = s.pc := rfl
@[simp] theorem State.deliver_mem : (s.deliver l).mem = s.mem := rfl
@[simp] theorem State.deliver_run : (s.deliver l).run = s.run := rfl
@[simp] theorem State.deliver_count : (s.deliver l).count = s.count := rfl
@[simp] theorem State.deliver_input : (s.deliver l).input = s.input ++ l := rfl
@[simp] theorem State.deliver_outAnswers : (s.deliver l).outAnswers = s.outAnswers := rfl
@[simp] theorem State.deliver_output : (s.deliver l).output = s.output := rfl
@[simp] theorem State.deliver_warning : (s.deliver l).warning = s.warning := rfl
@[simp] theorem State.deliver_wait : (s.deliver l).wait = s.wait := rfl
@[simp] theorem State.deliver_fetched : (s.deliver l).fetched = s.fetched := rfl
@[simp] theorem State.deliver_trace : (s.deliver l).trace = s.trace := rfl

@[simp] theorem State.startCycle_regs : (s.startCycle).regs = s.regs := rfl
@[simp] theorem State.startCycle_pc : (s.startCycle).pc = s.pc := rfl
@[simp] theorem State.startCycle_mem : (s.startCycle).mem = s.mem := rfl
@[simp] theorem State.startCycle_run : (s.startCycle).run = s.run := rfl
@[simp] theorem State.startCycle_count : (s.startCycle).count = s.count + 1 := rfl
@[simp] theorem State.startCycle_input : (s.startCycle).input = s.input := rfl
@[simp] theorem State.startCycle_outAnswers : (s.startCycle).outAnswers = s.outAnswers := rfl
@[simp] theorem State.startCycle_output : (s.startCycle).output = s.output := rfl
@[simp] theorem State.startCycle_warning : (s.startCycle).warning = none := rfl
@[simp] theorem State.startCycle_wait : (s.startCycle).wait = none := rfl
@[simp] theorem State.startCycle_fetched : (s.startCycle).fetched = s.fetched := rfl
@[simp] theorem State.startCycle_trace : (s.startCycle).trace = s.trace := rfl

@[simp] theorem State.endRun_regs : (s.endRun).regs = s.regs := rfl
@[simp] theorem State.endRun_pc : (s.endRun).pc = s.pc := rfl
@[simp] theorem State.endRun_mem : (s.endRun).mem = s.mem := rfl
@[simp] theorem State.endRun_run : (s.endRun).run = s.run := rfl
@[simp] theorem State.endRun_count : (s.endRun).count = s.count := rfl
@[simp] theorem State.endRun_input : (s.endRun).input = s.input := rfl
@[simp] theorem State.endRun_outAnswers : (s.endRun).outAnswers = s.outAnswers := rfl
@[simp] theorem State.endRun_output : (s.endRun).output = s.output := rfl
@[simp] theorem State.endRun_warning : (s.endRun).warning = s.warning := rfl
@[simp] theorem State.endRun_wait : (s.endRun).wait = s.wait := rfl
@[simp] theorem State.endRun_fetched : (s.endRun).fetched = s.fetched := rfl
@[simp] theorem State.endRun_trace : (s.endRun).trace = s.trace ++ [.dump s.fullDump] := rfl

@[simp] theorem State.completeCycle_regs : (State.completeCycle f p s).regs = s.regs := rfl
@[simp] theorem State.completeCycle_pc : (State.completeCycle f p s).pc = s.pc := rfl
@[simp] theorem State.completeCycle_mem : (State.completeCycle f p s).mem = s.mem := rfl
@[simp] theorem State.completeCycle_run : (State.completeCycle f p s).run = s.run := rfl
@[simp] theorem State.completeCycle_count : (State.completeCycle f p s).count = s.count := rfl
@[simp] theorem State.completeCycle_input : (State.completeCycle f p s).input = s.input := rfl
@[simp] theorem State.completeCycle_outAnswers : (State.completeCycle f p s).outAnswers = s.outAnswers := rfl
@[simp] theorem State.completeCycle_output : (State.completeCycle f p s).output = s.output := rfl
@[simp] theorem State.completeCycle_warning : (State.completeCycle f p s).warning = s.warning := rfl
@[simp] theorem State.completeCycle_wait : (State.completeCycle f p s).wait = s.wait := rfl
@[simp] theorem State.completeCycle_fetched : (State.completeCycle f p s).fetched = none := rfl
@[simp] theorem State.completeCycle_trace : (State.completeCycle f p s).trace = s.trace ++ [.record (traceRecord f p s)] := rfl

end Sys2Proof.Machine
end

