-- ==== Sys2Proof/Laws/Ops.lean ====
section
/-! SUPPORT. What each shared operation can do, said once. -/

namespace Sys2Proof.Machine

/-! ### Registers -/

@[simp] theorem RegFile.get_set_same (f : RegFile) (i : Reg) (v : Word) : (f.set i v).get i = v := by cases i <;> rfl

theorem RegFile.get_set_ne (f : RegFile) {i j : Reg} (v : Word) (h : j ≠ i) : (f.set i v).get j = f.get j := by
  cases i <;> cases j <;> first | rfl | exact absurd rfl h

theorem State.setReg_reg (s : State) (i j : Reg) (v : Word) :
    (s.setReg i v).reg j = if j = i then v else s.reg j := by
  split
  · subst j; exact RegFile.get_set_same ..
  · exact RegFile.get_set_ne _ _ ‹_›

/-! ### Bounds checks -/

theorem State.memRead_ok {s : State} {a : Int} {v : Word} :
    s.memRead a = .ok v ↔ legalAddress a ∧ v = s.mem.read a.toNat := by
  by_cases h : legalAddress a
  · rw [State.memRead, if_pos h, Except.ok.injEq]; exact ⟨fun e => ⟨h, e.symm⟩, fun e => e.2.symm⟩
  · rw [State.memRead, if_neg h]; exact ⟨nofun, fun e => absurd e.1 h⟩

theorem State.memRead_error {s : State} {a : Int} {w : Warning} :
    s.memRead a = .error w ↔ ¬legalAddress a ∧ w = .illegalAddress a := by
  by_cases h : legalAddress a
  · rw [State.memRead, if_pos h]; exact ⟨nofun, fun e => absurd h e.1⟩
  · rw [State.memRead, if_neg h, Except.error.injEq]; exact ⟨fun e => ⟨h, e.symm⟩, fun e => e.2.symm⟩

theorem State.memWrite_ok {s t : State} {a : Int} {v : Word} :
    s.memWrite a v = .ok t ↔ legalAddress a ∧ t = s.setWord a.toNat v := by
  by_cases h : legalAddress a
  · rw [State.memWrite, if_pos h, Except.ok.injEq]; exact ⟨fun e => ⟨h, e.symm⟩, fun e => e.2.symm⟩
  · rw [State.memWrite, if_neg h]; exact ⟨nofun, fun e => absurd e.1 h⟩

theorem State.memWrite_error {s : State} {a : Int} {v : Word} {w : Warning} :
    s.memWrite a v = .error w ↔ ¬legalAddress a ∧ w = .illegalAddress a := by
  by_cases h : legalAddress a
  · rw [State.memWrite, if_pos h]; exact ⟨nofun, fun e => absurd h e.1⟩
  · rw [State.memWrite, if_neg h, Except.error.injEq]; exact ⟨fun e => ⟨h, e.symm⟩, fun e => e.2.symm⟩

theorem State.setPC_ok {s t : State} {w : Word} :
    s.setPC w = .ok t ↔ signed w < 256 ∧ t = s.setPcRaw (trunc8 w) := by
  unfold State.setPC jumpTarget
  split <;> simp_all [Except.map, eq_comm]

theorem State.setPC_error {s : State} {w : Word} {e : Warning} :
    s.setPC w = .error e ↔ 256 ≤ signed w ∧ e = .illegalAddress (signed w) := by
  unfold State.setPC jumpTarget
  split <;> simp_all [Except.map, eq_comm]

/-! ### Bodies that may end in a condition -/

/-- The end of a body: its state, or the state before with the condition recorded. -/
theorem State.orWarn_cases (s : State) (e : Except Warning State) :
    (∃ t, e = .ok t ∧ s.orWarn e = t) ∨ ∃ w, e = .error w ∧ s.orWarn e = s.warn w := by
  cases e with
  | ok t => exact .inl ⟨t, rfl, rfl⟩
  | error w => exact .inr ⟨w, rfl, rfl⟩

/-- A jump: to the low 8 bits of the target, or IllegalAddress. -/
theorem State.jump_cases (s : State) (w : Word) :
    (signed w < 256 ∧ s.orWarn (s.setPC w) = s.setPcRaw (trunc8 w)) ∨
      (256 ≤ signed w ∧ s.orWarn (s.setPC w) = s.warn (.illegalAddress (signed w))) := by
  obtain ⟨t, h, ht⟩ | ⟨e, h, he⟩ := s.orWarn_cases (s.setPC w)
  · obtain ⟨h1, rfl⟩ := State.setPC_ok.mp h; exact .inl ⟨h1, ht⟩
  · obtain ⟨h1, rfl⟩ := State.setPC_error.mp h; exact .inr ⟨h1, he⟩

/-- A store: at the operand's address, or IllegalAddress. -/
theorem State.store_cases (s : State) (x : Reg) (k : Addr) (v : Word) :
    (legalAddress (s.sxInt x k) ∧ s.orWarn (s.writeOperand x k v) = s.setWord (s.sxInt x k).toNat v) ∨
      (¬legalAddress (s.sxInt x k) ∧
        s.orWarn (s.writeOperand x k v) = s.warn (.illegalAddress (s.sxInt x k))) := by
  obtain ⟨t, h, ht⟩ | ⟨e, h, he⟩ := s.orWarn_cases (s.writeOperand x k v)
  · obtain ⟨h1, rfl⟩ := State.memWrite_ok.mp h; exact .inl ⟨h1, ht⟩
  · obtain ⟨h1, rfl⟩ := State.memWrite_error.mp h; exact .inr ⟨h1, he⟩

/-- An instruction that only reads its memory operand: what it makes of the Word, or IllegalAddress. -/
theorem State.load_cases (s : State) (x : Reg) (k : Addr) (g : Word → State) :
    (legalAddress (s.sxInt x k) ∧
        s.orWarn ((s.readOperand x k).map g) = g (s.mem.read (s.sxInt x k).toNat)) ∨
      (¬legalAddress (s.sxInt x k) ∧
        s.orWarn ((s.readOperand x k).map g) = s.warn (.illegalAddress (s.sxInt x k))) := by
  unfold State.readOperand State.memRead
  split
  · exact .inl ⟨‹_›, rfl⟩
  · exact .inr ⟨‹_›, rfl⟩

/-- ADD to AND: the register is written, or a condition is recorded, the address being checked first. -/
theorem State.arith_cases (s : State) (op : Word → Word → Except Warning Word) (r x : Reg) (k : Addr) :
    (legalAddress (s.sxInt x k) ∧ ∃ v, op (s.reg r) (s.mem.read (s.sxInt x k).toNat) = .ok v ∧
        s.arith op r x k = s.setReg r v) ∨
      (legalAddress (s.sxInt x k) ∧ ∃ w, op (s.reg r) (s.mem.read (s.sxInt x k).toNat) = .error w ∧
        s.arith op r x k = s.warn w) ∨
      (¬legalAddress (s.sxInt x k) ∧ s.arith op r x k = s.warn (.illegalAddress (s.sxInt x k))) := by
  unfold State.arith State.readOperand State.memRead
  split
  · rename_i ha
    cases h : op (s.reg r) (s.mem.read (s.sxInt x k).toNat) with
    | ok v => exact .inl ⟨ha, v, rfl, by simp [Except.bind, Except.map, h, State.orWarn]⟩
    | error w => exact .inr (.inl ⟨ha, w, rfl, by simp [Except.bind, Except.map, h, State.orWarn]⟩)
  · exact .inr (.inr ⟨‹_›, rfl⟩)

/-- SHL and SHR: the register is written, or a condition is recorded. -/
theorem State.shift_cases (s : State) (op : Word → Int → Except Warning Word) (r x : Reg) (k : Addr) :
    (∃ v, op (s.reg r) (s.sxInt x k) = .ok v ∧ s.shift op r x k = s.setReg r v) ∨
      ∃ w, op (s.reg r) (s.sxInt x k) = .error w ∧ s.shift op r x k = s.warn w := by
  unfold State.shift
  cases op (s.reg r) (s.sxInt x k) with
  | ok v => exact .inl ⟨v, rfl, rfl⟩
  | error w => exact .inr ⟨w, rfl, rfl⟩

/-! ### Ports -/

/-- An output call: the event is output, with or without an answer used up, or the run aborts with IllegalIO. -/
theorem State.emitOut_cases (s : State) (e : OutEvent) :
    (∃ l, s.emitOut e = { s with output := s.output ++ [e], outAnswers := l } ∧
        (s.outAnswers = l ∧ l = [] ∨ s.outAnswers = .ok :: l)) ∨
      ∃ l, s.outAnswers = .err :: l ∧
        s.emitOut e = { s with outAnswers := l, run := .aborted .illegalIO } := by
  unfold State.emitOut
  split
  · rename_i h; exact .inl ⟨[], by rw [← h], .inl ⟨h, rfl⟩⟩
  · rename_i l h; exact .inl ⟨l, rfl, .inr h⟩
  · rename_i l h; exact .inr ⟨l, h, rfl⟩

/-- The dump of BR r=0 adds at most one event to the trace port. -/
theorem State.emitDump_cases (s : State) (v : Verbosity) :
    s.emitDump v = s ∨ ∃ d, s.emitDump v = s.emitTrace (.dump d) := by
  cases v
  · exact .inl rfl
  all_goals exact .inr ⟨_, rfl⟩

/-! ### Reading a token -/

/-- Skipping separators: the input is the separators skipped and then what is left, which says how the loop ends. -/
theorem skipSeparators_spec (l : List InAnswer) :
    ∃ seps, seps.all isSeparator = true ∧ l = okBytes seps ++ (skipSeparators l).2 ∧
      (((skipSeparators l).2 = [] ∧ (skipSeparators l).1 = some (.wait [])) ∨
        (∃ t, (skipSeparators l).2 = .eof :: t ∧ (skipSeparators l).1 = some (.abort .endOfInput)) ∨
        (∃ t, (skipSeparators l).2 = .err :: t ∧ (skipSeparators l).1 = some (.abort .illegalIO)) ∨
        (∃ b t, (skipSeparators l).2 = .byte b .err :: t ∧ isSeparator b = true ∧
          (skipSeparators l).1 = some (.abort .illegalIO)) ∨
        ∃ b a t, (skipSeparators l).2 = .byte b a :: t ∧ isSeparator b = false ∧ (skipSeparators l).1 = none) := by
  induction l with
  | nil => exact ⟨[], rfl, rfl, .inl ⟨rfl, rfl⟩⟩
  | cons p l ih =>
    cases p with
    | eof => exact ⟨[], rfl, rfl, .inr (.inl ⟨l, rfl, rfl⟩)⟩
    | err => exact ⟨[], rfl, rfl, .inr (.inr (.inl ⟨l, rfl, rfl⟩))⟩
    | byte b a =>
      by_cases hb : isSeparator b = true
      · cases a with
        | ok =>
          obtain ⟨seps, h1, h2, h3⟩ := ih
          refine ⟨b :: seps, by simp [hb, h1], ?_, by simpa [skipSeparators, hb] using h3⟩
          simpa [skipSeparators, hb] using h2
        | err =>
          refine ⟨[], rfl, by simp [skipSeparators, hb], .inr (.inr (.inr (.inl ⟨b, l, ?_, hb, ?_⟩)))⟩ <;>
            simp [skipSeparators, hb]
      · have hb' : isSeparator b = false := by simpa using hb
        refine ⟨[], rfl, ?_, .inr (.inr (.inr (.inr ⟨b, a, l, ?_, hb', ?_⟩)))⟩ <;>
          cases a <;> simp [skipSeparators, hb']

/-- Collecting a token: the input is the token bytes collected and then what is left, which says how the loop ends. -/
theorem collectToken_spec (tok : List Byte) (l : List InAnswer) :
    ∃ bs, (bs.all fun b => !isSeparator b) = true ∧ l = okBytes bs ++ (collectToken tok l).2 ∧
      (((collectToken tok l).2 = [] ∧ (collectToken tok l).1 = .wait (tok ++ bs)) ∨
        (endsToken (collectToken tok l).2 = true ∧ (collectToken tok l).1 = .token (tok ++ bs)) ∨
        (∃ t, (collectToken tok l).2 = .err :: t ∧ (collectToken tok l).1 = .abort .illegalIO) ∨
        ∃ b t, (collectToken tok l).2 = .byte b .err :: t ∧ isSeparator b = false ∧
          (collectToken tok l).1 = .abort .illegalIO) := by
  induction l generalizing tok with
  | nil => exact ⟨[], rfl, rfl, .inl ⟨rfl, by simp [collectToken]⟩⟩
  | cons p l ih =>
    cases p with
    | eof => exact ⟨[], rfl, rfl, .inr (.inl ⟨rfl, by simp [collectToken]⟩)⟩
    | err => exact ⟨[], rfl, rfl, .inr (.inr (.inl ⟨l, rfl, rfl⟩))⟩
    | byte b a =>
      by_cases hb : isSeparator b = true
      · refine ⟨[], rfl, ?_, .inr (.inl ⟨?_, ?_⟩)⟩ <;> cases a <;> simp [collectToken, hb, endsToken]
      · have hb' : isSeparator b = false := by simpa using hb
        cases a with
        | ok =>
          obtain ⟨bs, h1, h2, h3⟩ := ih (tok ++ [b])
          refine ⟨b :: bs, by simp [hb', h1], ?_, by simpa [collectToken, hb'] using h3⟩
          simpa [collectToken, hb'] using h2
        | err =>
          refine ⟨[], rfl, ?_, .inr (.inr (.inr ⟨b, l, ?_, hb', ?_⟩))⟩ <;> simp [collectToken, hb']

/-! ### The cycle -/

/-- How a cycle ends after its body: held, completed, completed and halted, or aborted. -/
theorem finishCycle_cases (f : Fetched) (pre post : State) :
    (post.run = .running ∧ post.wait ≠ none ∧ finishCycle f pre post = { post with fetched := some f }) ∨
      (post.run = .running ∧ post.wait = none ∧ finishCycle f pre post = State.completeCycle f pre post) ∨
      (post.run = .halted ∧ finishCycle f pre post = (State.completeCycle f pre post).endRun) ∨
      ∃ r, post.run = .aborted r ∧ finishCycle f pre post = { post with fetched := none }.endRun := by
  unfold finishCycle
  split
  · rename_i h
    split
    · rename_i hw; exact .inl ⟨h, by simp [hw], rfl⟩
    · exact .inr (.inl ⟨h, ‹_›, rfl⟩)
  · exact .inr (.inr (.inl ⟨‹_›, rfl⟩))
  · exact .inr (.inr (.inr ⟨_, ‹_›, rfl⟩))

/-- A body that answers a next state ends the cycle from it. -/
theorem runBody_next {f : Fetched} {s t : State} (h : runBody f s = .next t) :
    ∃ u, exec (decode f.word) s = .next u ∧ t = finishCycle f s u := by
  unfold runBody at h
  split at h
  · cases h; exact ⟨_, ‹_›, rfl⟩
  · cases h
  · cases h

end Sys2Proof.Machine
end

