-- ==== Sys2Proof/Laws/InOut.lean ====
section
/-! SUPPORT. What the two input bodies can do, said once. -/

namespace Sys2Proof.Machine

/-- Reading a token aborts only for an exhausted stream or a channel error. -/
theorem readToken_abort {tok : List Byte} {l rest : List InAnswer} {q : AbortReason}
    (h : readToken tok l = (.abort q, rest)) : q = .endOfInput ∨ q = .illegalIO := by
  have hc : ∀ tok l, (collectToken tok l).1 = .abort q → q = .endOfInput ∨ q = .illegalIO := by
    intro tok l h
    obtain ⟨_, _, _, h1⟩ := collectToken_spec tok l
    rcases h1 with ⟨_, h1⟩ | ⟨_, h1⟩ | ⟨_, _, h1⟩ | ⟨_, _, _, _, h1⟩ <;> rw [h1] at h <;> cases h
    · exact .inr rfl
    · exact .inr rfl
  unfold readToken at h
  split at h
  · obtain ⟨_, _, _, h1⟩ := skipSeparators_spec l
    split at h
    · rename_i heq
      rw [heq] at h1
      cases h
      simp at h1
      rcases h1 with ⟨_, h1⟩ | ⟨_, h1⟩ | ⟨_, _, _, h1⟩ <;> simp [h1]
    · exact hc _ _ (by rw [h])
  · exact hc _ _ (by rw [h])

/-- A wait keeps token bytes only: no separator is among them. -/
theorem readToken_wait {tok tok' : List Byte} {l rest : List InAnswer} (htok : (tok.all fun b => !isSeparator b) = true)
    (h : readToken tok l = (.wait tok', rest)) : (tok'.all fun b => !isSeparator b) = true := by
  have hc : ∀ tok l, (tok.all fun b => !isSeparator b) = true → (collectToken tok l).1 = .wait tok' →
      (tok'.all fun b => !isSeparator b) = true := by
    intro tok l htok h
    obtain ⟨bs, hbs, _, h1⟩ := collectToken_spec tok l
    rcases h1 with ⟨_, h1⟩ | ⟨_, h1⟩ | ⟨_, _, h1⟩ | ⟨_, _, _, _, h1⟩ <;> rw [h1] at h <;> cases h
    rw [List.all_append, htok, hbs]; rfl
  unfold readToken at h
  split at h
  · obtain ⟨_, _, _, h1⟩ := skipSeparators_spec l
    split at h
    · rename_i heq
      rw [heq] at h1
      cases h
      simp at h1
      rw [h1.2]; rfl
    · exact hc [] _ rfl (by rw [h])
  · exact hc _ _ htok (by rw [h])

/-- The body of IO r=0: it waits, aborts, warns of a malformed token or of the address, or stores. -/
theorem execInDec_cases {x : Reg} {k : Addr} {s t : State} (h : execInDec x k s = .next t) :
    ∃ e rest, readToken (s.wait.getD []) s.input = (e, rest) ∧
      ((∃ tok, e = .wait tok ∧ t = s.setInput rest (some tok)) ∨
        (∃ q, e = .abort q ∧ t = (s.setInput rest none).abort q) ∨
        ∃ tok, e = .token tok ∧
          ((tokenValue tok = none ∧ t = (s.setInput rest none).warn (.malformedNumber tok)) ∨
            ∃ v, tokenValue tok = some v ∧
              ((legalAddress (s.sxInt x k) ∧ t = (s.setInput rest none).setWord (s.sxInt x k).toNat v) ∨
                (¬legalAddress (s.sxInt x k) ∧
                  t = (s.setInput rest none).warn (.illegalAddress (s.sxInt x k)))))) := by
  unfold execInDec at h
  split at h
  · cases h; exact ⟨_, _, ‹_›, .inl ⟨_, rfl, rfl⟩⟩
  · cases h; exact ⟨_, _, ‹_›, .inr (.inl ⟨_, rfl, rfl⟩)⟩
  · rename_i tok rest heq
    dsimp only at h
    split at h
    · cases h; exact ⟨_, _, heq, .inr (.inr ⟨_, rfl, .inl ⟨‹_›, rfl⟩⟩)⟩
    · rename_i v hv
      have hsx : (s.setInput rest none).sxInt x k = s.sxInt x k := by cases x <;> rfl
      have hst := (s.setInput rest none).store_cases x k v
      rw [hsx] at hst
      cases h
      exact ⟨_, _, heq, .inr (.inr ⟨_, rfl, .inr ⟨v, hv, hst⟩⟩)⟩

/-- The body of IO r=1: it waits, aborts, or reads one byte. -/
theorem execInChr_cases {x : Reg} {k : Addr} {s t : State} (h : execInChr x k s = .next t) :
    (s.input = [] ∧ t = s.setInput [] (some [])) ∨
      (∃ q, (q = .endOfInput ∨ q = .illegalIO) ∧ t = (s.setInput s.input none).abort q) ∨
      ∃ b l, s.input = .byte b .ok :: l ∧ t = (s.setInput l none).storeIOByte x b := by
  unfold execInChr at h
  split at h <;> cases h
  · exact .inl ⟨‹_›, rfl⟩
  · exact .inr (.inl ⟨_, .inl rfl, rfl⟩)
  · exact .inr (.inl ⟨_, .inr rfl, rfl⟩)
  · exact .inr (.inl ⟨_, .inr rfl, rfl⟩)
  · exact .inr (.inr ⟨_, _, ‹_›, rfl⟩)

end Sys2Proof.Machine
end

