-- ==== Sys2Proof/Laws/PerInstr.lean ====
section
/-! SUPPORT. Statements for all instructions, one lemma per constructor: every well-formed instruction's encoding
matches a row of spec/opcode_table.json (30_encoding.md R93 to R95). -/

namespace Sys2Proof.Laws.EncodeMatches

/-- A Word matches a row of the opcode table: `(w & mask) == match`. -/
abbrev row (w mask value : Word) : Prop := w &&& mask = value

/-- The encoding of the instruction has the fixed bits of its row; a well-formed NOP has a reserved bit set. -/
def Statement : Instr → Prop
  | .ld r x k => row (encode (.ld r x k)) 0xF0F00 0x00000
  | .ldi r x k => row (encode (.ldi r x k)) 0xF0F00 0x10000
  | .st r x k => row (encode (.st r x k)) 0xF0F00 0x20000
  | .add r x k => row (encode (.add r x k)) 0xF0F00 0x30000
  | .sub r x k => row (encode (.sub r x k)) 0xF0F00 0x40000
  | .mul r x k => row (encode (.mul r x k)) 0xF0F00 0x50000
  | .div r x k => row (encode (.div r x k)) 0xF0F00 0x60000
  | .bor r x k => row (encode (.bor r x k)) 0xF0F00 0x70000
  | .band r x k => row (encode (.band r x k)) 0xF0F00 0x80000
  | .shl r x k => row (encode (.shl r x k)) 0xF0F00 0x90000
  | .shr r x k => row (encode (.shr r x k)) 0xF0F00 0xA0000
  | .inDec x k => row (encode (.inDec x k)) 0xFCF00 0xB0000
  | .inChr x k => row (encode (.inChr x k)) 0xFCF00 0xB4000
  | .outDec x k => row (encode (.outDec x k)) 0xFCF00 0xB8000
  | .outChr x k => row (encode (.outChr x k)) 0xFCF00 0xBC000
  | .halt v k => row (encode (.halt v k)) 0xFCF00 0xC0000
  | .djmp x k => row (encode (.djmp x k)) 0xFCF00 0xC4000
  | .jrel x k => row (encode (.jrel x k)) 0xFCF00 0xC8000
  | .jmp x k => row (encode (.jmp x k)) 0xFCF00 0xCC000
  | .brz r x k => row (encode (.brz r x k)) 0xF0F00 0xD0000
  | .brn r x k => row (encode (.brn r x k)) 0xF0F00 0xE0000
  | .brs r x k => row (encode (.brs r x k)) 0xF0F00 0xF0000
  | .nop op r x resv k =>
    (Instr.nop op r x resv k).wellFormed = true → encode (.nop op r x resv k) &&& 0x00F00 ≠ 0

theorem ld (r x : Reg) (k : Addr) : Statement (.ld r x k) :=
  pack_row (by omega) r.index_lt x.index_lt

theorem ldi (r x : Reg) (k : Addr) : Statement (.ldi r x k) :=
  pack_row (by omega) r.index_lt x.index_lt

theorem st (r x : Reg) (k : Addr) : Statement (.st r x k) :=
  pack_row (by omega) r.index_lt x.index_lt

theorem add (r x : Reg) (k : Addr) : Statement (.add r x k) :=
  pack_row (by omega) r.index_lt x.index_lt

theorem sub (r x : Reg) (k : Addr) : Statement (.sub r x k) :=
  pack_row (by omega) r.index_lt x.index_lt

theorem mul (r x : Reg) (k : Addr) : Statement (.mul r x k) :=
  pack_row (by omega) r.index_lt x.index_lt

theorem div (r x : Reg) (k : Addr) : Statement (.div r x k) :=
  pack_row (by omega) r.index_lt x.index_lt

theorem bor (r x : Reg) (k : Addr) : Statement (.bor r x k) :=
  pack_row (by omega) r.index_lt x.index_lt

theorem band (r x : Reg) (k : Addr) : Statement (.band r x k) :=
  pack_row (by omega) r.index_lt x.index_lt

theorem shl (r x : Reg) (k : Addr) : Statement (.shl r x k) :=
  pack_row (by omega) r.index_lt x.index_lt

theorem shr (r x : Reg) (k : Addr) : Statement (.shr r x k) :=
  pack_row (by omega) r.index_lt x.index_lt

theorem inDec (x : Reg) (k : Addr) : Statement (.inDec x k) :=
  pack_subOpRow (by omega) (by omega) x.index_lt

theorem inChr (x : Reg) (k : Addr) : Statement (.inChr x k) :=
  pack_subOpRow (by omega) (by omega) x.index_lt

theorem outDec (x : Reg) (k : Addr) : Statement (.outDec x k) :=
  pack_subOpRow (by omega) (by omega) x.index_lt

theorem outChr (x : Reg) (k : Addr) : Statement (.outChr x k) :=
  pack_subOpRow (by omega) (by omega) x.index_lt

theorem halt (v : Verbosity) (k : Addr) : Statement (.halt v k) :=
  pack_subOpRow (by omega) (by omega) v.index_lt

theorem djmp (x : Reg) (k : Addr) : Statement (.djmp x k) :=
  pack_subOpRow (by omega) (by omega) x.index_lt

theorem jrel (x : Reg) (k : Addr) : Statement (.jrel x k) :=
  pack_subOpRow (by omega) (by omega) x.index_lt

theorem jmp (x : Reg) (k : Addr) : Statement (.jmp x k) :=
  pack_subOpRow (by omega) (by omega) x.index_lt

theorem brz (r x : Reg) (k : Addr) : Statement (.brz r x k) :=
  pack_row (by omega) r.index_lt x.index_lt

theorem brn (r x : Reg) (k : Addr) : Statement (.brn r x k) :=
  pack_row (by omega) r.index_lt x.index_lt

theorem brs (r x : Reg) (k : Addr) : Statement (.brs r x k) :=
  pack_row (by omega) r.index_lt x.index_lt

theorem nop (op : BitVec 4) (r x : Reg) (resv : BitVec 4) (k : Addr) : Statement (.nop op r x resv k) := by
  intro h
  have h : resv ≠ 0 := by simpa [Instr.wellFormed] using h
  show pack _ _ _ _ _ &&& 0x00F00#20 ≠ 0
  rw [and_reservedMask, resvField_pack, BitVec.ofNat_toNat, BitVec.setWidth_eq]
  exact shifted_resv_ne resv h

end Sys2Proof.Laws.EncodeMatches
end

