-- ==== Sys2Proof/Tests/Slice0.lean ====
section
/-! SUPPORT. The model's own tests: the WellFormed smoke, one written-out Word per constructor, one-instruction vectors of
95_test_vectors.md, and for every statement with hypotheses a witness that meets them. -/

namespace Sys2Proof.Machine.Tests

/-- A running state at PC `pc` with four register values, a memory, and channel input. -/
def mk (pc : Addr) (r0 r1 r2 r3 : Word) (m : Memory) (input : List InAnswer) : State :=
  .start ⟨r0, r1, r2, r3⟩ pc m input []

/-- One field of the state that one step leads to. -/
def after {α : Type} (s : State) (f : State → α) : Option α := (nextState? (step s)).map f

/-- One field of the state that one body leads to. -/
def body {α : Type} (i : Instr) (s : State) (f : State → α) : Option α := (nextState? (exec i s)).map f

/-! ### WellFormed: its one check -/

theorem test_nop_without_reserved_bit_is_ill_formed : (Instr.nop 1 .r0 .r0 0 5).wellFormed = false := by decide

theorem test_nop_with_reserved_bit_is_well_formed : (Instr.nop 1 .r0 .r0 1 5).wellFormed = true := by decide

/-! ### Decode: one Word per constructor, written out as op, r, x, reserved, s (30_encoding.md R91, R93, R94, R95) -/


theorem test_decode_ld : decode 0b00000110000000001010#20 = .ld .r1 .r2 10 ∧ encode (.ld .r1 .r2 10) = 0b00000110000000001010#20 := by decide

theorem test_decode_ldi : decode 0b00010001000000000101#20 = .ldi .r0 .r1 5 ∧ encode (.ldi .r0 .r1 5) = 0b00010001000000000101#20 := by decide

theorem test_decode_st : decode 0b00101011000010000000#20 = .st .r2 .r3 128 ∧ encode (.st .r2 .r3 128) = 0b00101011000010000000#20 := by decide

theorem test_decode_add : decode 0b00110100000000010100#20 = .add .r1 .r0 20 ∧ encode (.add .r1 .r0 20) = 0b00110100000000010100#20 := by decide

theorem test_decode_sub : decode 0b01001110000000010101#20 = .sub .r3 .r2 21 ∧ encode (.sub .r3 .r2 21) = 0b01001110000000010101#20 := by decide

theorem test_decode_mul : decode 0b01011001000000010110#20 = .mul .r2 .r1 22 ∧ encode (.mul .r2 .r1 22) = 0b01011001000000010110#20 := by decide

theorem test_decode_div : decode 0b01100111000000010111#20 = .div .r1 .r3 23 ∧ encode (.div .r1 .r3 23) = 0b01100111000000010111#20 := by decide

theorem test_decode_bor : decode 0b01111100000000011000#20 = .bor .r3 .r0 24 ∧ encode (.bor .r3 .r0 24) = 0b01111100000000011000#20 := by decide

theorem test_decode_band : decode 0b10000010000011111111#20 = .band .r0 .r2 255 ∧ encode (.band .r0 .r2 255) = 0b10000010000011111111#20 := by decide

theorem test_decode_shl : decode 0b10011001000000000100#20 = .shl .r2 .r1 4 ∧ encode (.shl .r2 .r1 4) = 0b10011001000000000100#20 := by decide

theorem test_decode_shr : decode 0b10100111000000000001#20 = .shr .r1 .r3 1 ∧ encode (.shr .r1 .r3 1) = 0b10100111000000000001#20 := by decide

theorem test_decode_inDec : decode 0b10110001000000010100#20 = .inDec .r1 20 ∧ encode (.inDec .r1 20) = 0b10110001000000010100#20 := by decide

theorem test_decode_inChr : decode 0b10110110000000000111#20 = .inChr .r2 7 ∧ encode (.inChr .r2 7) = 0b10110110000000000111#20 := by decide

theorem test_decode_outDec : decode 0b10111011000000010100#20 = .outDec .r3 20 ∧ encode (.outDec .r3 20) = 0b10111011000000010100#20 := by decide

theorem test_decode_outChr : decode 0b10111101000000000000#20 = .outChr .r1 0 ∧ encode (.outChr .r1 0) = 0b10111101000000000000#20 := by decide

theorem test_decode_halt : decode 0b11000010000000000011#20 = .halt .registers 3 ∧ encode (.halt .registers 3) = 0b11000010000000000011#20 := by decide

theorem test_decode_djmp : decode 0b11000101000001000000#20 = .djmp .r1 64 ∧ encode (.djmp .r1 64) = 0b11000101000001000000#20 := by decide

theorem test_decode_jrel : decode 0b11001010000000000101#20 = .jrel .r2 5 ∧ encode (.jrel .r2 5) = 0b11001010000000000101#20 := by decide

theorem test_decode_jmp : decode 0b11001111000000100000#20 = .jmp .r3 32 ∧ encode (.jmp .r3 32) = 0b11001111000000100000#20 := by decide

theorem test_decode_brz : decode 0b11010110000000000101#20 = .brz .r1 .r2 5 ∧ encode (.brz .r1 .r2 5) = 0b11010110000000000101#20 := by decide

theorem test_decode_brn : decode 0b11101101000000000111#20 = .brn .r3 .r1 7 ∧ encode (.brn .r3 .r1 7) = 0b11101101000000000111#20 := by decide

theorem test_decode_brs : decode 0b11111001000000100000#20 = .brs .r2 .r1 32 ∧ encode (.brs .r2 .r1 32) = 0b11111001000000100000#20 := by decide

theorem test_decode_nop : decode 0b01101101010000000001#20 = .nop 6 .r3 .r1 4 1 ∧ encode (.nop 6 .r3 .r1 4 1) = 0b01101101010000000001#20 := by decide

theorem test_decodeTableWord : decodeTableWord 24 0x10005 = some (.ldi .r0 .r0 5) := by decide

theorem test_withFetchWord_runs : after (State.reset.withFetchWord 24 0x10005) (fun t => (t.regs.r0, t.pc, t.count)) =
    some (5, 1, 1) := by decide

theorem test_withFetchWord_from_a_terminal_state :
    after ({ State.reset with run := .halted, count := 201 }.withFetchWord 24 0x10005) (fun t => (t.regs.r0, t.run)) =
      some (5, .running) := by decide

/-! ### One-instruction vectors: 95_test_vectors.md Part 4, with its Words -/

theorem test_ld_r_is_x :
    after (mk 0 0 0 9 0 [(0, 0x0A001), (10, 0x33333)] []) (fun t => (t.regs.r2, t.pc)) =
      some (0x33333, 1) := by decide

theorem test_ld_negative_address :
    after (mk 0 0 5 0xFFFFF 0 [(0, 0x06000)] []) (fun t => (t.regs.r1, t.warning)) =
      some (5, some (.illegalAddress (-1))) := by decide

theorem test_ldi_wraps_to_the_minimum :
    after (mk 0 0 0x7FFFF 0 0 [(0, 0x15001)] []) (fun t => t.regs.r1) =
      some (0x80000) := by decide

theorem test_ldi_copies :
    after (mk 0 0 0 0xFFFF7 0 [(0, 0x1E000)] []) (fun t => t.regs.r3) =
      some (0xFFFF7) := by decide

theorem test_st_next_instruction :
    after (mk 0 0x10007 0 0 0 [(0, 0x20001)] []) (fun t => t.mem) =
      some ([(0, 0x20001), (1, 0x10007)]) := by decide

theorem test_st_address_256 :
    after (mk 0 0x2A 0x100 0 0 [(0, 0x21000)] []) (fun t => (t.mem, t.warning)) =
      some ([(0, 0x21000)], some (.illegalAddress 256)) := by decide

theorem test_add_overflow :
    after (mk 0 0 0x7FFFF 0 0 [(0, 0x34014), (20, 1)] []) (fun t => t.regs.r1) =
      some (0x80000) := by decide

theorem test_add_r_is_x :
    after (mk 0 0 0x14 0 0 [(0, 0x35000), (20, 7)] []) (fun t => t.regs.r1) =
      some (0x1B) := by decide

theorem test_sub_order :
    after (mk 0 3 0 0 0 [(0, 0x40015), (21, 5)] []) (fun t => t.regs.r0) =
      some (0xFFFFE) := by decide

theorem test_mul_wraps :
    after (mk 0 0 0 0x400 0 [(0, 0x58016), (22, 0x400)] []) (fun t => t.regs.r2) =
      some (0) := by decide

theorem test_mul_negative :
    after (mk 0 0 0 0xFFFFD 0 [(0, 0x58016), (22, 4)] []) (fun t => t.regs.r2) =
      some (0xFFFF4) := by decide

theorem test_div_truncates :
    after (mk 0 0 0xFFFF9 0 0 [(0, 0x64017), (23, 2)] []) (fun t => t.regs.r1) =
      some (0xFFFFD) := by decide

theorem test_div_by_zero :
    after (mk 0 0 0xFFFF9 0 0 [(0, 0x64017)] []) (fun t => (t.regs.r1, t.warning)) =
      some (0xFFFF9, some .divisionByZero) := by decide

theorem test_or :
    after (mk 0 0 0 0 0xF0F0F [(0, 0x7C018), (24, 0x0FF00)] []) (fun t => t.regs.r3) =
      some (0xFFF0F) := by decide

theorem test_and :
    after (mk 0 0 0 0 0xF0F0F [(0, 0x8C018), (24, 0x0FF00)] []) (fun t => t.regs.r3) =
      some (0x00F00) := by decide

theorem test_shl_19 :
    after (mk 0 0 0 3 0 [(0, 0x98013)] []) (fun t => t.regs.r2) =
      some (0x80000) := by decide

theorem test_shl_20 :
    after (mk 0 0 0 3 0 [(0, 0x98014)] []) (fun t => (t.regs.r2, t.warning)) =
      some (3, some (.invalidShiftAmount 20)) := by decide

theorem test_shr_rounds_down :
    after (mk 0 0 0 0xFFFFD 0 [(0, 0xA8001)] []) (fun t => t.regs.r2) =
      some (0xFFFFE) := by decide

theorem test_shr_255 :
    after (mk 0 0 0 0x80000 0 [(0, 0xA80FF)] []) (fun t => (t.regs.r2, t.warning)) =
      some (0x80000, some (.invalidShiftAmount 255)) := by decide

theorem test_indec_minimum :
    after (mk 0 0 0 0 0 [(0, 0xB0014)] (okBytes [9, 0x20, 0x2D, 0x35, 0x32, 0x34, 0x32, 0x38, 0x38] ++ [.eof])) (fun t => (t.mem.read 20, t.input)) =
      some (0x80000, [.eof]) := by decide

theorem test_indec_malformed :
    after (mk 0 0 0 0 0 [(0, 0xB0014)] (okBytes [0x31, 0x2D, 0x32, 0x20] ++ [.eof])) (fun t => (t.mem.read 20, t.warning, t.input)) =
      some (0, some (.malformedNumber [0x31, 0x2D, 0x32]), okBytes [0x20] ++ [.eof]) := by decide

theorem test_inchr_keeps_upper_bits :
    after (mk 0 0 0 0xFFFFF 0 [(0, 0xB6000)] (okBytes [0x41])) (fun t => (t.regs.r2, t.input)) =
      some (0xFFF41, []) := by decide

theorem test_inchr_end_of_input :
    after (mk 0 0 0 0xFFFFF 0 [(0, 0xB6000)] [.eof]) (fun t => (t.regs.r2, t.run, t.pc)) =
      some (0xFFFFF, .aborted .endOfInput, 1) := by decide

theorem test_outdec_signed :
    after (mk 0 0 0 0 0 [(0, 0xB8014), (20, 0x80000)] []) (fun t => t.output) =
      some ([.outDec (-524288)]) := by decide

theorem test_outdec_negative_address :
    after (mk 0 0 0xFFFFF 0 0 [(0, 0xB9000)] []) (fun t => (t.output, t.warning)) =
      some ([], some (.illegalAddress (-1))) := by decide

theorem test_outchr_high_byte :
    after (mk 0 0 0x41000 0 0 [(0, 0xBD000)] []) (fun t => t.output) =
      some ([.outByte 65]) := by decide

theorem test_outchr_channel_error :
    after ({ mk 0 0 0x41000 0 0 [(0, 0xBD000)] [] with outAnswers := [.err] }) (fun t => (t.output, t.run)) =
      some ([], .aborted .illegalIO) := by decide

theorem test_halt_at_255 :
    after (mk 255 0 0 0 0 [(255, 0xC3000)] []) (fun t => (t.pc, t.run, t.trace.length)) =
      some (0, .halted, 4) := by decide

theorem test_djmp :
    after (mk 0 0 0 0 0 [(0, 0xC4040)] []) (fun t => (t.pc, t.trace.length)) =
      some (64, 3) := by decide

theorem test_jrel_back_to_itself :
    after (mk 10 0 0xFFFFF 0 0 [(10, 0xC9000)] []) (fun t => t.pc) =
      some (10) := by decide

theorem test_jrel_past_255 :
    after (mk 10 0 0 0 0 [(10, 0xC80FA)] []) (fun t => (t.pc, t.warning)) =
      some (11, some (.illegalAddress 261)) := by decide

theorem test_jmp_negative_target :
    after (mk 0 0 0xFFFFF 0 0 [(0, 0xCD000)] []) (fun t => t.pc) =
      some (255) := by decide

theorem test_jmp_256 :
    after (mk 0 0 0x100 0 0 [(0, 0xCD000)] []) (fun t => (t.pc, t.warning)) =
      some (1, some (.illegalAddress 256)) := by decide

theorem test_brz_taken :
    after (mk 0 0 0 0 0 [(0, 0xD0005)] []) (fun t => t.pc) =
      some (5) := by decide

theorem test_brz_not_taken_checks_nothing :
    after (mk 0 1 0x12C 0 0 [(0, 0xD1000)] []) (fun t => (t.pc, t.warning)) =
      some (1, none) := by decide

theorem test_brn_minimum :
    after (mk 0 0 0x80000 0 0 [(0, 0xE4007)] []) (fun t => t.pc) =
      some (7) := by decide

theorem test_brn_zero :
    after (mk 0 0 0 0 0 [(0, 0xE4007)] []) (fun t => t.pc) =
      some (1) := by decide

theorem test_brs_r_is_x :
    after (mk 3 0 0 0 0x50 [(3, 0xFF000)] []) (fun t => (t.pc, t.regs.r3)) =
      some (80, 4) := by decide

theorem test_brs_keeps_the_link :
    after (mk 3 0 0x100 0x12345 0 [(3, 0xF9000)] []) (fun t => (t.pc, t.regs.r2, t.warning)) =
      some (4, 4, some (.illegalAddress 256)) := by decide

theorem test_nop :
    after (mk 0 1 2 3 4 [(0, 0xFFFFF)] []) (fun t => (t.regs, t.pc, t.warning)) =
      some (⟨1, 2, 3, 4⟩, 1, none) := by decide

/-! ### The wait, the limit, the trace and the codes -/

theorem test_wait_keeps_token_bytes_and_count :
    after (mk 0 0 0 0 0 [(0, 0xB0014)] (okBytes [0x20, 0x31, 0x32])) (fun t => (t.wait, t.count, t.pc, t.run)) =
      some (some [0x31, 0x32], 1, 1, .running) := by decide

theorem test_resumed_token :
    (nextState? (step (mk 0 0 0 0 0 [(0, 0xB0014)] (okBytes [0x20, 0x31, 0x32])))).bind
        (fun t => after (t.deliver (okBytes [0x33, 0x20])) (fun u => (u.mem.read 20, u.count, u.wait, u.input))) =
      some (123, 1, none, okBytes [0x20]) := by decide

theorem test_limit_aborts_before_the_fetch :
    after { mk 7 0 0 0 0 [(7, 0x10005)] [] with count := 200 } (fun t => (t.run, t.count, t.pc, t.regs.r0)) =
      some (.aborted .instructionLimitExceeded, 201, 7, 0) := by decide

theorem test_200th_instruction_may_halt :
    after { mk 7 0 0 0 0 [(7, 0xC0000)] [] with count := 199 } (fun t => (t.run, t.count)) = some (.halted, 200) := by
  decide

theorem test_trace_record_of_a_store :
    after (mk 0 0x2A 0 0 0 [(0, 0x2000A)] []) (fun t => t.trace.getLast?) =
      some (some (.record ⟨1, ⟨0, 0x2000A⟩, .st .r0 .r0 10, ⟨0x2A, 0, 0, 0⟩, 1, ⟨0x2A, 0, 0, 0⟩, 1,
        some ⟨10, some 0, some 0x2A⟩, none⟩)) := by decide

theorem test_status_codes :
    [RunState.running, .halted, .aborted .endOfInput, .aborted .illegalIO, .aborted .instructionLimitExceeded].map
      RunState.code = [0, 1, 2, 3, 4] := by decide

theorem test_warning_codes :
    [none, some (.illegalAddress 0), some .divisionByZero, some (.invalidShiftAmount 0), some (.malformedNumber [])].map
      warningCode = [0, 1, 2, 3, 4] := by decide

theorem test_render_output : renderOutput (fun _ => [0x37]) [.outDec 7, .outByte 0x0A] = [0x37, 0x0A] := by decide

/-! ### The arithmetic unit: rows of 95_test_vectors.md Part 2 -/

theorem test_divide_minimum_by_minus_one : aluDivideBy 0x80000 0xFFFFF = .ok 0x80000 := by decide

theorem test_divide_maximum_by_minimum : aluDivideBy 0x7FFFF 0x80000 = .ok 0x00000 := by decide

theorem test_restoring_division_of_the_minimum : restoringDivide 0x80000 7 = 74898 := by decide

theorem test_negate_minimum : aluNegate 0x80000 = 0x80000 := by decide

theorem test_multiply_maximum : aluMultiply 0x7FFFF 0x7FFFF = 0x00001 ∧ shiftAndAdd 0x7FFFF 0x7FFFF 20 = 0x00001 := by
  decide

theorem test_shiftRight_minimum : aluShiftRight 0x80000 19 = .ok 0xFFFFF := by decide

theorem test_toHex : toHex 0xABC0F = ['A', 'B', 'C', '0', 'F'] ∧ addrToHex 0x0A = ['0', 'A'] := by decide

/-! ### Witnesses: the hypotheses of every statement are met, each clause at a boundary of its range -/

/-- R1 = -1, R2 = 256, R3 = 246; M[255] = 3; PC' = 10. -/
def w : State := mk 10 0 0xFFFFF 0x100 0xF6 [(255, 3)] []

theorem witness_DecodeEncodeWellFormed : (Instr.nop 0 .r0 .r0 8 0).wellFormed = true ∧ (Instr.ld .r3 .r3 255).wellFormed = true := by
  decide

theorem witness_DecodingFollowsTheOpcodeMap :
    (0x000FF#20 &&& 0xF0F00#20 = 0x00000#20) ∧ (0x1F0FF#20 &&& 0xF0F00#20 = 0x10000#20) ∧
    (0x2F0FF#20 &&& 0xF0F00#20 = 0x20000#20) ∧ (0x3F0FF#20 &&& 0xF0F00#20 = 0x30000#20) ∧
    (0x4F0FF#20 &&& 0xF0F00#20 = 0x40000#20) ∧ (0x5F0FF#20 &&& 0xF0F00#20 = 0x50000#20) ∧
    (0x6F0FF#20 &&& 0xF0F00#20 = 0x60000#20) ∧ (0x7F0FF#20 &&& 0xF0F00#20 = 0x70000#20) ∧
    (0x8F0FF#20 &&& 0xF0F00#20 = 0x80000#20) ∧ (0x9F0FF#20 &&& 0xF0F00#20 = 0x90000#20) ∧
    (0xAF0FF#20 &&& 0xF0F00#20 = 0xA0000#20) ∧ (0xB30FF#20 &&& 0xFCF00#20 = 0xB0000#20) ∧
    (0xB70FF#20 &&& 0xFCF00#20 = 0xB4000#20) ∧ (0xBB0FF#20 &&& 0xFCF00#20 = 0xB8000#20) ∧
    (0xBF0FF#20 &&& 0xFCF00#20 = 0xBC000#20) ∧ (0xC30FF#20 &&& 0xFCF00#20 = 0xC0000#20) ∧
    (0xC70FF#20 &&& 0xFCF00#20 = 0xC4000#20) ∧ (0xCB0FF#20 &&& 0xFCF00#20 = 0xC8000#20) ∧
    (0xCF0FF#20 &&& 0xFCF00#20 = 0xCC000#20) ∧ (0xDF0FF#20 &&& 0xF0F00#20 = 0xD0000#20) ∧
    (0xEF0FF#20 &&& 0xF0F00#20 = 0xE0000#20) ∧ (0xFF0FF#20 &&& 0xF0F00#20 = 0xF0000#20) ∧
    (0x00100#20 &&& 0x00F00#20 ≠ 0) := by decide

theorem witness_LdLoadsOrWarns :
    ((w.sxInt .r0 0 = (0 : Nat)) ∧ w.sxInt .r0 255 = (255 : Nat)) ∧ w.sxInt .r1 0 = -1 ∧ w.sxInt .r2 0 = 256 := by decide

theorem witness_StStoresOrWarns :
    ((w.sxInt .r0 0 = (0 : Nat)) ∧ w.sxInt .r0 255 = (255 : Nat)) ∧ w.sxInt .r1 0 = -1 ∧ w.sxInt .r2 0 = 256 := by decide

theorem witness_AddAddsOrWarns :
    ((w.sxInt .r0 0 = (0 : Nat)) ∧ w.sxInt .r0 255 = (255 : Nat)) ∧ w.sxInt .r1 0 = -1 ∧ w.sxInt .r2 0 = 256 := by decide

theorem witness_SubSubtractsOrWarns :
    ((w.sxInt .r0 0 = (0 : Nat)) ∧ w.sxInt .r0 255 = (255 : Nat)) ∧ w.sxInt .r1 0 = -1 ∧ w.sxInt .r2 0 = 256 := by decide

theorem witness_MulMultipliesOrWarns :
    ((w.sxInt .r0 0 = (0 : Nat)) ∧ w.sxInt .r0 255 = (255 : Nat)) ∧ w.sxInt .r1 0 = -1 ∧ w.sxInt .r2 0 = 256 := by decide

theorem witness_OrOrsOrWarns :
    ((w.sxInt .r0 0 = (0 : Nat)) ∧ w.sxInt .r0 255 = (255 : Nat)) ∧ w.sxInt .r1 0 = -1 ∧ w.sxInt .r2 0 = 256 := by decide

theorem witness_AndAndsOrWarns :
    ((w.sxInt .r0 0 = (0 : Nat)) ∧ w.sxInt .r0 255 = (255 : Nat)) ∧ w.sxInt .r1 0 = -1 ∧ w.sxInt .r2 0 = 256 := by decide

theorem witness_LdiLoadsTheOperandValue : Reg.r1 ≠ .r0 := by decide

theorem witness_DivDividesOrWarns :
    ((w.sxInt .r0 0 = (0 : Nat)) ∧ w.sxInt .r0 255 = (255 : Nat)) ∧ w.sxInt .r1 0 = -1 ∧ w.sxInt .r2 0 = 256 ∧
      w.mem.read 255 ≠ 0 ∧ w.mem.read 0 = 0 := by decide

theorem witness_ShlShiftsOrWarns :
    (w.sxInt .r0 0 = (0 : Nat) ∧ w.sxInt .r0 19 = (19 : Nat)) ∧ w.sxInt .r1 0 = -1 ∧ w.sxInt .r0 20 = 20 := by decide

theorem witness_ShrShiftsOrWarns :
    (w.sxInt .r0 0 = (0 : Nat) ∧ w.sxInt .r0 19 = (19 : Nat)) ∧ w.sxInt .r1 0 = -1 ∧ w.sxInt .r0 20 = 20 := by decide

/-- `w` with the input of a body of IO r=0. -/
def wIn (seps tok : List Byte) (rest : List InAnswer) : State := { w with input := okBytes seps ++ okBytes tok ++ rest }

theorem witness_InDecReadsATokenOrStops :
    ([0x00, 0x20, 0x7F, 0xA0].all isSeparator = true) ∧ (([0x39].all fun b => !isSeparator b) = true) ∧
    (wIn [0x20] [0x39] [.eof]).wait = none ∧
    (endsToken [.eof] = true ∧ endsToken [.byte 0x20 .err] = true ∧ tokenValue [0x39] = some 9) ∧
    ((wIn [0x20] [0x39] [.eof]).sxInt .r0 255 = (255 : Nat) ∧ (wIn [0x20] [0x39] [.eof]).sxInt .r1 0 = -1 ∧
      (wIn [0x20] [0x39] [.eof]).sxInt .r2 0 = 256) ∧
    tokenValue [0x78] = none ∧
    (isSeparator 0x20 = true ∧ isSeparator 0x39 = false) := by decide

theorem test_indec_each_end :
    body (.inDec .r0 20) (wIn [0x20] [] [.eof]) (fun t => t.run) = some (.aborted .endOfInput) ∧
    body (.inDec .r0 20) (wIn [0x20] [0x39] [.err]) (fun t => t.run) = some (.aborted .illegalIO) ∧
    body (.inDec .r0 20) (wIn [] [] [.byte 0x20 .err]) (fun t => t.run) = some (.aborted .illegalIO) ∧
    body (.inDec .r0 20) (wIn [0x20] [0x39] []) (fun t => t.wait) = some (some [0x39]) := by decide

theorem witness_InChrReadsAByteOrStops :
    { w with input := [.byte 0xFF .ok, .eof] }.input = .byte 0xFF .ok :: [.eof] ∧ { w with input := [.eof] }.input = .eof :: [] ∧
    { w with input := [.err] }.input = .err :: [] ∧ { w with input := [.byte 0 .err] }.input = .byte 0 .err :: [] := by
  decide

theorem witness_OutDecEmitsOrWarnsOrStops :
    ((w.sxInt .r0 0 = (0 : Nat)) ∧ w.sxInt .r0 255 = (255 : Nat)) ∧
    { w with outAnswers := [.ok] }.outAnswers = .ok :: [] ∧ { w with outAnswers := [.err] }.outAnswers = .err :: [] ∧
    w.sxInt .r1 0 = -1 ∧ w.sxInt .r2 0 = 256 := by decide

theorem witness_OutChrEmitsOrStops :
    { w with outAnswers := [.ok] }.outAnswers = .ok :: [] ∧ { w with outAnswers := [.err] }.outAnswers = .err :: [] := by
  decide

theorem witness_UnansweredChannelCalls :
    ([0x00, 0xA0].all isSeparator = true ∧ ([0x21, 0xA1].all fun b => !isSeparator b) = true) ∧
    ((wIn [0x00, 0xA0] [0x21, 0xA1] []).wait = none ∧
      (wIn [0x00, 0xA0] [0x21, 0xA1] []).input = okBytes [0x00, 0xA0] ++ okBytes [0x21, 0xA1]) ∧
    w.input = [] ∧ w.outAnswers = [] ∧ w.sxInt .r0 0 = (0 : Nat) ∧ w.sxInt .r0 255 = (255 : Nat) := by decide

theorem witness_DjmpDumpsAndJumpsOrWarns : (w.sx .r0 255).toInt = 255 ∧ (w.sx .r2 0).toInt = 256 := by decide

theorem witness_JrelJumpsOrWarns :
    (w.pc.setWidth 20 + w.sx .r0 245).toInt = 255 ∧ (w.pc.setWidth 20 + w.sx .r3 0).toInt = 256 := by decide

theorem witness_JmpJumpsOrWarns : (w.sx .r0 255).toInt = 255 ∧ (w.sx .r2 0).toInt = 256 := by decide

theorem witness_BrzBranchesOnZero :
    w.regs.get .r0 = 0 ∧ (w.sx .r0 255).toInt = 255 ∧ (w.sx .r2 0).toInt = 256 ∧ w.regs.get .r1 ≠ 0 := by decide

theorem witness_BrnBranchesOnNegative :
    (w.regs.get .r1).toInt = -1 ∧ (w.sx .r0 255).toInt = 255 ∧ (w.sx .r2 0).toInt = 256 ∧ (w.regs.get .r0).toInt = 0 := by
  decide

theorem witness_BrsLinksAndJumpsOrWarns : (w.sx .r0 255).toInt = 255 ∧ (w.sx .r2 0).toInt = 256 := by decide

theorem witness_NopHasNoEffect : (8 : BitVec 4) ≠ 0 ∧ (1 : BitVec 4) ≠ 0 := by decide

theorem witness_DivideTruncatesTowardZero : (0 : Word) = 0 ∧ (0xFFFFF : Word) ≠ 0 := by decide

theorem witness_RestoringDivisionIsFloor :
    2 ^ 20 - 1 < 2 ^ 20 ∧ (0 < 1 ∧ 1 < 2 ^ 20) ∧ restoringDivide (2 ^ 20 - 1) 1 = 2 ^ 20 - 1 := by decide

theorem witness_ShiftsAgainstIntegers : (19 ≤ 19) ∧ ((-1 : Int) < 0 ∧ (19 : Int) < 20) ∧ (0 : Nat) ≤ 19 := by decide

theorem witness_LogicAndTestsByBits : (19 : Nat) < 20 := by decide

theorem witness_WordOperationLaws :
    (0x80000 : Word) ≠ 0 ∧ (1 ≤ 1 ∧ 1 ≤ 18) ∧ (1 ≤ 18 ∧ 18 ≤ 18) ∧ signed 0xFFFFF = -1 ∧ ¬((2 : Int) ^ 1 ∣ signed 0xFFFFF) ∧
    ¬((2 : Int) ^ 18 ∣ signed 0xFFFFF) ∧ (19 : Nat) ≤ 19 := by decide

theorem witness_ConversionsRoundTrip : fromDecimal 524287 = some 0x7FFFF ∧ fromDecimal (-524288) = some 0x80000 ∧
    fromDecimal 524288 = none := by decide

theorem witness_TokenGrammar :
    ([5, 2, 4, 2, 8, 7].foldl (fun acc d => acc * 10 + d) 0 = 524287) ∧
    ([5, 2, 4, 2, 8, 8].foldl (fun acc d => acc * 10 + d) 0 = 524288) ∧
    ([5, 2, 4, 2, 8, 9].foldl (fun acc d => acc * 10 + d) 0 = 524289) ∧ (∀ d ∈ [5, 2, 4, 2, 8, 9], d ≤ 9) ∧
    tokenValue [0x2D, 0x30] ≠ none := by decide

theorem witness_RegisterByteAccess : Reg.r3 ≠ .r0 ∧ (w.regs.set .r3 0x80001).get .r3 = 0x80001 ∧ (19 : Nat) < 20 ∧ (7 : Nat) < 8 := by decide

theorem witness_PcPrimitives :
    ((255 : Word).toInt = 255 ∧ (256 : Word).toInt = 256) ∧ (BitVec.ofNat 20 w.pc.toNat + (245 : Word)).toInt = 255 ∧
    (BitVec.ofNat 20 w.pc.toNat + (246 : Word)).toInt = 256 := by decide

theorem witness_MemoryAccessWithBoundsCheck :
    ((-1 : Int) < 0 ∧ (256 : Int) ≤ 256) ∧ (255 : Nat) < 256 ∧ w.mem.wf = true := by decide

theorem witness_CanonicalMemoryIsExtensional :
    w.mem.wf = true ∧ Memory.wf (Memory.write [] 255 3) = true ∧ w.mem.read 255 = (Memory.write [] 255 3).read 255 ∧
    w.mem = Memory.write [] 255 3 := by decide

theorem witness_OperandValue : Reg.r1 ≠ .r0 ∧ w.sxInt .r1 1 = 0 := by decide

theorem witness_FetchSeesTheStore : w.mem.wf = true ∧ w.sxInt .r0 255 = (255 : Nat) ∧ w.sxInt .r0 0 = (0 : Nat) := by decide

/-- The state in which the body of the Word at the PC of `s` runs, for the four ways a body can end. -/
def inBody (s : State) : State := { s with count := s.count + 1, warning := none, wait := none, pc := s.pc + 1 }

theorem witness_StepRunsTheDecodedInstruction :
    (w.run = .running ∧ w.fetched = none ∧ { w with count := 199 }.count < 200) ∧
    body (decode 0x10005) (inBody w) (fun t => (t.run, t.wait)) = some (.running, none) ∧
    body (decode 0xB4000) (inBody w) (fun t => (t.run, t.wait)) = some (.running, some []) ∧
    body (decode 0xC0000) (inBody w) (fun t => t.run) = some .halted ∧
    body (decode 0xB4000) (inBody { w with input := [.eof] }) (fun t => t.run) = some (.aborted .endOfInput) := by decide

/-- `w` with a cycle of INCHR held at address 9. -/
def wHeld (input : List InAnswer) : State :=
  { w with mem := [(9, 0xB4000)], wait := some [], fetched := some ⟨9, 0xB4000⟩, input := input, count := 200 }

theorem witness_HeldCycleResumesWithoutANewCount :
    (wHeld []).run = .running ∧ (wHeld []).fetched = some ⟨9, 0xB4000⟩ ∧ (wHeld []).inv = true ∧
    body (decode 0xB4000) (wHeld [.byte 1 .ok]) (fun t => (t.run, t.wait, t.count)) = some (.running, none, 200) ∧
    body (decode 0xB4000) (wHeld []) (fun t => (t.run, t.wait)) = some (.running, some []) ∧
    body (decode 0xB4000) (wHeld [.eof]) (fun t => t.run) = some (.aborted .endOfInput) ∧
    body (decode 0xC0000) { wHeld [] with fetched := some ⟨9, 0xC0000⟩ } (fun t => t.run) = some .halted := by decide

theorem witness_LimitAbortsBeforeTheFetch :
    { w with count := 200 }.run = .running ∧ { w with count := 200 }.fetched = none ∧ 200 ≤ { w with count := 200 }.count := by
  decide

theorem witness_TerminalStatesStay : { w with run := .halted }.run ≠ .running ∧
    { w with run := .aborted .illegalIO }.run ≠ .running := by decide

theorem witness_EveryStepKeepsTheInvariant :
    State.reset.inv = true ∧ after State.reset State.inv = some true ∧ w.inv = true ∧ (wHeld []).inv = true ∧
    after (wHeld []) State.inv = some true := by decide

theorem witness_LateInputMakesNoDifference :
    (mk 0 0 0 0 0 [(0, 0xB0014)] (okBytes [0x31])).inv = true ∧
    after (mk 0 0 0 0 0 [(0, 0xB0014)] (okBytes [0x31])) (fun t => t.fetched) = some (some ⟨0, 0xB0014⟩) := by decide

/-- A state one step before its halt, and the halted state. -/
def wHalt : State := mk 0 0 0 0 0 [(0, 0xC0000)] []

theorem wHalt_halts : ∃ t : State, step wHalt = .next t ∧ t.fetched = none ∧ step t = .next t := ⟨_, rfl, rfl, rfl⟩

theorem witness_RunsNeverHeldEndWithin201Steps (n : Nat) (t : State) (_ : n ≤ 201) (h : runSteps n wHalt = .next t) :
    t.fetched = none := by
  obtain ⟨u, h1, h2, h3⟩ := wHalt_halts
  have hu : ∀ m : Nat, runSteps m u = .next u := fun m => by
    induction m with
    | zero => rfl
    | succ m ih => rw [runSteps, h3]; exact ih
  cases n with
  | zero => cases h; rfl
  | succ n => rw [runSteps, h1] at h; cases (hu n).symm.trans h; exact h2

theorem witness_OnlyStoresChangeMemory : body (.st .r1 .r0 0) w (fun t => t.mem.read 0) = some 0xFFFFF ∧
    w.mem.read 0 = 0 := by decide

theorem witness_OnlyTheNamedRegisterChanges : body (.brs .r1 .r0 0) w (fun t => t.regs.get .r1) = some 10 ∧
    w.regs.get .r1 = 0xFFFFF := by decide

theorem witness_OnlyTransfersMoveThePcOrEndTheRun :
    body (.jmp .r0 0) w (fun t => t.pc) = some 0 ∧ w.pc = 10 ∧ body (.halt .none 0) w (fun t => t.run) = some .halted ∧
    w.run = .running := by decide

theorem witness_ConditionsAreRaisedByTheirInstructions :
    body (.ld .r0 .r2 0) w (fun t => t.warning) = some (some (.illegalAddress 256)) ∧
    body (.jrel .r3 0) w (fun t => t.warning) = some (some (.illegalAddress 256)) ∧
    body (.div .r1 .r0 0) w (fun t => t.warning) = some (some .divisionByZero) ∧
    body (.shr .r0 .r0 20) w (fun t => t.warning) = some (some (.invalidShiftAmount 20)) ∧
    body (.inDec .r0 0) (wIn [] [0x2D] [.eof]) (fun t => t.warning) = some (some (.malformedNumber [0x2D])) ∧
    w.warning = none := by decide

theorem witness_OnlyIoTouchesThePorts :
    body (.inChr .r0 0) (wIn [] [1] []) (fun t => t.input) = some [] ∧ body (.inChr .r0 0) w (fun t => t.wait) = some (some []) ∧
    body (.outChr .r0 0) w (fun t => t.output) = some [.outByte 0] ∧
    body (.djmp .r0 0) w (fun t => t.trace.length) = some 2 ∧ w.trace.length = 1 := by decide

theorem witness_CounterAndTraceAreNotRead : body (.ldi .r0 .r0 1) w (fun t => t.count) = some 0 ∧
    after w (fun t => t.count) = some 1 := by decide

theorem witness_BootStartsTheRunOrRefuses :
    (((0 : Nat) : Int) + 256 ≤ 256 ∧ 0 < 256 ∧ 255 < 256 ∧ (∀ p ∈ [((255 : Nat), (7 : Word))], p.1 < 256) ∧
      ([((255 : Nat), (7 : Word))].map Prod.fst).Nodup) ∧
    (⟨255, 0, 256, "", [(255, 7)]⟩ : Image).premise = true ∧
    (⟨0, 255, 1, "", []⟩ : Image).premise = true ∧
    (⟨0, 256, 0, "", []⟩ : Image).premise = false ∧ (⟨0, 300, -50, "", []⟩ : Image).premise = false ∧
    (⟨255, 1, 256, "", []⟩ : Image).premise = false ∧ (⟨256, 0, 0, "", []⟩ : Image).premise = false ∧
    (⟨0, 0, 0, "", [(256, 1)]⟩ : Image).premise = false ∧ (⟨0, 0, 0, "", [(3, 1), (3, 2)]⟩ : Image).premise = false := by
  decide

end Sys2Proof.Machine.Tests
end

section
/-! PROOFS. The channel, the trace and the counter in a body (O57), the two output operations (O18, O19), and the start of
a run (O59). -/

namespace Sys2Proof.Machine

/-! ### What a body does to the ports -/

/-- The part of the state that the ports of 00_scope.md R22 to R25 and the cycle's bookkeeping make up: all of `State` but
registers, PC, memory, run state and condition. -/
structure Ports where
  count : Nat
  fetched : Option Fetched
  input : List InAnswer
  wait : Option (List Byte)
  output : List OutEvent
  outAnswers : List ChanAnswer
  trace : List TraceEvent

/-- The ports of a state. -/
def State.ports (s : State) : Ports where
  count := s.count
  fetched := s.fetched
  input := s.input
  wait := s.wait
  output := s.output
  outAnswers := s.outAnswers
  trace := s.trace

section
variable (s : State) (i r x : Reg) (v : Word) (k a : Addr) (b : Byte) (n : Nat) (w : Warning) (q : RunState)

@[simp] theorem State.setReg_ports : (s.setReg i v).ports = s.ports := rfl
@[simp] theorem State.setPcRaw_ports : (s.setPcRaw a).ports = s.ports := rfl
@[simp] theorem State.storePC_ports : (s.storePC i).ports = s.ports := rfl
@[simp] theorem State.storeIOByte_ports : (s.storeIOByte i b).ports = s.ports := rfl
@[simp] theorem State.setWord_ports : (s.setWord n v).ports = s.ports := rfl
@[simp] theorem State.warn_ports : (s.warn w).ports = s.ports := rfl
@[simp] theorem State.setRun_ports : (s.setRun q).ports = s.ports := rfl
@[simp] theorem State.abort_ports (p : AbortReason) : (s.abort p).ports = s.ports := rfl
@[simp] theorem State.setInput_ports (l : List InAnswer) (o : Option (List Byte)) :
    (s.setInput l o).ports = { s.ports with input := l, wait := o } := rfl
@[simp] theorem State.emitTrace_ports (e : TraceEvent) :
    (s.emitTrace e).ports = { s.ports with trace := s.trace ++ [e] } := rfl

@[simp] theorem State.jump_ports : (s.orWarn (s.setPC v)).ports = s.ports := by
  obtain ⟨-, h⟩ | ⟨-, h⟩ := s.jump_cases v <;> simp [h]

@[simp] theorem State.store_ports : (s.orWarn (s.writeOperand x k v)).ports = s.ports := by
  obtain ⟨-, h⟩ | ⟨-, h⟩ := s.store_cases x k v <;> simp [h]

@[simp] theorem State.load_ports : (s.orWarn ((s.readOperand x k).map (s.setReg r))).ports = s.ports := by
  obtain ⟨-, h⟩ | ⟨-, h⟩ := s.load_cases x k (s.setReg r) <;> simp [h]

@[simp] theorem State.arith_ports (op : Word → Word → Except Warning Word) :
    (s.arith op r x k).ports = s.ports := by
  obtain ⟨-, _, -, h⟩ | ⟨-, _, -, h⟩ | ⟨-, h⟩ := s.arith_cases op r x k <;> simp [h]

@[simp] theorem State.shift_ports (op : Word → Int → Except Warning Word) :
    (s.shift op r x k).ports = s.ports := by
  obtain ⟨_, -, h⟩ | ⟨_, -, h⟩ := s.shift_cases op r x k <;> simp [h]

/-- An output call moves the output side of the channel alone. -/
theorem State.emitOut_ports (e : OutEvent) :
    ∃ o l, (s.emitOut e).ports = { s.ports with output := o, outAnswers := l } := by
  obtain ⟨l, h, -⟩ | ⟨l, -, h⟩ := s.emitOut_cases e
  · exact ⟨s.output ++ [e], l, by rw [h]; rfl⟩
  · exact ⟨s.output, l, by rw [h]; rfl⟩

/-- The dump of BR r=0 moves the trace alone. -/
theorem State.emitDump_ports (d : Verbosity) : ∃ tr, (s.emitDump d).ports = { s.ports with trace := tr } := by
  obtain h | ⟨_, h⟩ := s.emitDump_cases d
  · exact ⟨s.trace, by rw [h]; rfl⟩
  · exact ⟨_, by rw [h, State.emitTrace_ports]⟩

end

/-- An input body moves the input side of the channel alone. -/
theorem execInDec_ports {x : Reg} {k : Addr} {s t : State} (h : execInDec x k s = .next t) :
    ∃ l o, t.ports = { s.ports with input := l, wait := o } := by
  obtain ⟨_, rest, -, ⟨tok, -, rfl⟩ | ⟨_, -, rfl⟩ | ⟨_, -, ⟨-, rfl⟩ | ⟨_, -, ⟨-, rfl⟩ | ⟨-, rfl⟩⟩⟩⟩ :=
    execInDec_cases h
  · exact ⟨rest, some tok, by simp⟩
  all_goals exact ⟨rest, none, by simp⟩

theorem execInChr_ports {x : Reg} {k : Addr} {s t : State} (h : execInChr x k s = .next t) :
    ∃ l o, t.ports = { s.ports with input := l, wait := o } := by
  obtain ⟨-, rfl⟩ | ⟨_, -, rfl⟩ | ⟨_, l, -, rfl⟩ := execInChr_cases h
  · exact ⟨[], some [], by simp⟩
  · exact ⟨s.input, none, by simp⟩
  · exact ⟨l, none, by simp⟩

theorem execOutDec_ports {x : Reg} {k : Addr} {s t : State} (h : execOutDec x k s = .next t) :
    ∃ o l, t.ports = { s.ports with output := o, outAnswers := l } := by
  cases h
  obtain ⟨-, h⟩ | ⟨-, h⟩ := s.load_cases x k fun m => s.emitOut (.outDec (signed m))
  · rw [h]; exact s.emitOut_ports _
  · exact ⟨s.output, s.outAnswers, by rw [h]; rfl⟩

/-- A body leaves the ports alone, or it is an input body and moves the input side, an output body and moves the output
side, or a dumping one and moves the trace. -/
theorem exec_ports {i : Instr} {s t : State} (h : exec i s = .next t) :
    t.ports = s.ports ∨
      (∃ x k, (i = .inDec x k ∨ i = .inChr x k) ∧ ∃ l o, t.ports = { s.ports with input := l, wait := o }) ∨
      (∃ x k, (i = .outDec x k ∨ i = .outChr x k) ∧
        ∃ o l, t.ports = { s.ports with output := o, outAnswers := l }) ∨
      ∃ v x k, (i = .halt v k ∨ i = .djmp x k) ∧ ∃ tr, t.ports = { s.ports with trace := tr } := by
  cases i with
  | inDec x k => exact .inr (.inl ⟨x, k, .inl rfl, execInDec_ports h⟩)
  | inChr x k => exact .inr (.inl ⟨x, k, .inr rfl, execInChr_ports (k := k) h⟩)
  | outDec x k => exact .inr (.inr (.inl ⟨x, k, .inl rfl, execOutDec_ports h⟩))
  | outChr x k => cases h; exact .inr (.inr (.inl ⟨x, k, .inr rfl, s.emitOut_ports _⟩))
  | halt v k => cases h; exact .inr (.inr (.inr ⟨v, .r0, k, .inl rfl, s.emitDump_ports v⟩))
  | djmp x k => cases h; exact .inr (.inr (.inr ⟨.none, x, k, .inr rfl, _, State.jump_ports ..⟩))
  | ld | ldi | st | add | sub | mul | div | bor | band | shl | shr | jrel | jmp | brs | nop =>
    cases h; left; simp [State.indexPC]
  | brz | brn => cases h; left; split <;> simp

/-- Settles O57: each case of `exec_ports` is read off field by field. -/
theorem onlyIoTouchesThePorts : Obligations.OnlyIoTouchesThePorts := by
  intro i s t h
  obtain hp | ⟨x, k, hi, l, o, hp⟩ | ⟨x, k, hi, o, l, hp⟩ | ⟨v, x, k, hi, tr, hp⟩ := exec_ports h <;>
    simp only [State.ports, Ports.mk.injEq] at hp <;>
    obtain ⟨hcount, hfetched, hinput, hwait, houtput, hanswers, htrace⟩ := hp
  · exact ⟨hcount, hfetched, by simp [hinput, hwait], by simp [houtput, hanswers], by simp [htrace]⟩
  · exact ⟨hcount, hfetched, fun _ => ⟨x, k, hi⟩, by simp [houtput, hanswers], by simp [htrace]⟩
  · exact ⟨hcount, hfetched, by simp [hinput, hwait], fun _ => ⟨x, k, hi⟩, by simp [htrace]⟩
  · exact ⟨hcount, hfetched, by simp [hinput, hwait], by simp [houtput, hanswers], fun _ => ⟨v, x, k, hi⟩⟩

/-! ### The two output operations -/

/-- A memory operand at a legal address. -/
theorem State.load_legal {s : State} {x : Reg} {k : Addr} {a : Nat} (g : Word → State) (ha : a < 256)
    (h : s.sxInt x k = a) : s.orWarn ((s.readOperand x k).map g) = g (s.mem.read a) := by
  obtain ⟨-, hl⟩ | ⟨hn, -⟩ := s.load_cases x k g
  · simpa [h] using hl
  · exact absurd ⟨by omega, by simp; omega⟩ hn

/-- A memory operand at any other address. -/
theorem State.load_illegal {s : State} {x : Reg} {k : Addr} (g : Word → State)
    (h : s.sxInt x k < 0 ∨ 256 ≤ s.sxInt x k) :
    s.orWarn ((s.readOperand x k).map g) = s.warn (.illegalAddress (s.sxInt x k)) := by
  obtain ⟨⟨h0, h1⟩, -⟩ | ⟨-, hw⟩ := s.load_cases x k g
  · simp at h1; omega
  · exact hw

theorem State.emitOut_ok {s : State} {l : List ChanAnswer} (e : OutEvent) (h : s.outAnswers = .ok :: l) :
    s.emitOut e = { s with outAnswers := l, output := s.output ++ [e] } := by
  simp [State.emitOut, h]

theorem State.emitOut_err {s : State} {l : List ChanAnswer} (e : OutEvent) (h : s.outAnswers = .err :: l) :
    s.emitOut e = { s with outAnswers := l, run := .aborted .illegalIO } := by
  simp [State.emitOut, h, State.abort, State.setRun]

theorem exec_outDec (x : Reg) (k : Addr) (s : State) :
    exec (.outDec x k) s =
      .next (s.orWarn ((s.readOperand x k).map fun m => s.emitOut (.outDec (signed m)))) := rfl

theorem exec_outChr (x : Reg) (k : Addr) (s : State) :
    exec (.outChr x k) s = .next (s.emitOut (.outByte ((s.regs.get x).extractLsb' 12 8))) := rfl

/-- Settles O18: the address check first, then the channel's answer. -/
theorem outDecEmitsOrWarnsOrStops : Obligations.OutDecEmitsOrWarnsOrStops := by
  intro x k s l
  rw [exec_outDec]
  refine ⟨Laws.EncodeMatches.outDec x k, fun a ha h => ?_, fun h => ?_⟩
  · rw [State.load_legal _ ha h]
    exact ⟨fun hok => by rw [State.emitOut_ok _ hok], fun herr => by rw [State.emitOut_err _ herr]⟩
  · rw [State.load_illegal _ h]; rfl

/-- Settles O19, by the channel's answer. -/
theorem outChrEmitsOrStops : Obligations.OutChrEmitsOrStops := by
  intro x k s l
  rw [exec_outChr]
  exact ⟨Laws.EncodeMatches.outChr x k, fun hok => by rw [State.emitOut_ok _ hok],
    fun herr => by rw [State.emitOut_err _ herr]⟩

/-! ### The start of a run -/

/-- `Image.wordsLegal` says what R362 asks of the word map: addresses in range, each at most once. -/
theorem Image.wordsLegal_iff (ws : List (Nat × Word)) :
    Image.wordsLegal ws = true ↔ (∀ p ∈ ws, p.1 < 256) ∧ (ws.map Prod.fst).Nodup := by
  induction ws with
  | nil => simp [Image.wordsLegal]
  | cons p ws ih =>
    obtain ⟨a, v⟩ := p
    have hfresh : (ws.all fun p => p.1 != a) = true ↔ a ∉ ws.map Prod.fst := by
      simp only [List.all_eq_true, bne_iff_ne, List.mem_map, not_exists, not_and]
    simp only [Image.wordsLegal, Bool.and_eq_true, decide_eq_true_eq, ih, hfresh, List.forall_mem_cons, List.map_cons,
      List.nodup_cons]
    tauto

/-- The launch premise of R362, with the address types of R21. -/
theorem Image.premise_iff (img : Image) :
    img.premise = true ↔ (img.loadStart : Int) + img.size ≤ 256 ∧ img.loadStart < 256 ∧ img.execStart < 256 ∧
      (∀ p ∈ img.words, p.1 < 256) ∧ (img.words.map Prod.fst).Nodup := by
  simp [Image.premise, Image.wordsLegal_iff, and_assoc]

/-- `loadImage` puts the Words of a legal word map over the memory it starts from. -/
theorem loadImage_read {m : Memory} {ws : List (Nat × Word)} (hm : m.wf = true) (h : Image.wordsLegal ws = true)
    (a : Nat) : (loadImage m ws).read a = (ws.lookup a).getD (m.read a) := by
  induction ws generalizing m with
  | nil => rfl
  | cons p ws ih =>
    obtain ⟨b, v⟩ := p
    obtain ⟨hlt, hnodup⟩ := (Image.wordsLegal_iff _).mp h
    obtain ⟨hb, hws⟩ := List.forall_mem_cons.mp hlt
    obtain ⟨hfresh, hrest⟩ := List.nodup_cons.mp hnodup
    rw [loadImage, ih (Memory.wf_write v hm hb) ((Image.wordsLegal_iff ws).mpr ⟨hws, hrest⟩), Memory.read_write hm]
    by_cases hab : a = b
    · subst a
      have hnone : ws.lookup b = none := by
        rw [List.lookup_eq_none_iff]
        intro p hp
        simpa using fun hbp : b = p.1 => hfresh (List.mem_map.mpr ⟨p, hp, hbp.symm⟩)
      simp [hnone]
    · rw [List.lookup_cons, beq_false_of_ne hab, if_neg hab]

/-- The start state meets the invariant when its memory has the canonical form. -/
theorem State.start_inv {regs : RegFile} {pc : Addr} {m : Memory} {input : List InAnswer} {outAnswers : List ChanAnswer}
    (hm : m.wf = true) : (State.start regs pc m input outAnswers).inv = true := by
  simp [State.inv, State.countOk, State.heldOk, State.start, hm]

/-- Settles O59: `boot` tests the launch premise, and the image's Words land in an empty memory. -/
theorem bootStartsTheRunOrRefuses : Obligations.BootStartsTheRunOrRefuses := by
  intro regInit img input outAnswers
  dsimp only
  rw [← Image.premise_iff]
  refine ⟨fun h => ?_, fun h => by rw [boot, if_neg h]⟩
  obtain ⟨-, -, hexec, hwords⟩ := img.premise_iff.mp h
  have hlegal : Image.wordsLegal img.words = true := (Image.wordsLegal_iff _).mpr hwords
  exact ⟨State.start regInit (BitVec.ofNat 8 img.execStart) (loadImage [] img.words) input outAnswers,
    by rw [boot, if_pos h], rfl, Nat.mod_eq_of_lt hexec, loadImage_read rfl hlegal, rfl, rfl, rfl,
    rfl, State.start_inv (loadImage_wf rfl hlegal), rfl, rfl, rfl, rfl, rfl⟩

end Sys2Proof.Machine
end

section
/-! PROOFS. The state and what every body and step keep: the invariant (O49, O50), the canonical memory (O41), steps
that always answer (O48, O47), the frames of registers, PC and run state (O54, O55), the counter and the trace as write-only
(O58), and the state's own primitives (O38, O39, O60). -/

namespace Sys2Proof.Machine

/-! ### What the shared operations leave alone -/

section
variable (s : State) (v : Word) (e : OutEvent) (d : Verbosity)

@[simp] theorem State.jump_regs : (s.orWarn (s.setPC v)).regs = s.regs := by
  obtain ⟨-, h⟩ | ⟨-, h⟩ := s.jump_cases v <;> simp [h]

@[simp] theorem State.jump_mem : (s.orWarn (s.setPC v)).mem = s.mem := by
  obtain ⟨-, h⟩ | ⟨-, h⟩ := s.jump_cases v <;> simp [h]

@[simp] theorem State.jump_run : (s.orWarn (s.setPC v)).run = s.run := by
  obtain ⟨-, h⟩ | ⟨-, h⟩ := s.jump_cases v <;> simp [h]

@[simp] theorem State.jump_output : (s.orWarn (s.setPC v)).output = s.output :=
  congrArg Ports.output (s.jump_ports v)

@[simp] theorem State.emitOut_regs : (s.emitOut e).regs = s.regs := by
  obtain ⟨_, h, -⟩ | ⟨_, -, h⟩ := s.emitOut_cases e <;> rw [h]

@[simp] theorem State.emitOut_pc : (s.emitOut e).pc = s.pc := by
  obtain ⟨_, h, -⟩ | ⟨_, -, h⟩ := s.emitOut_cases e <;> rw [h]

@[simp] theorem State.emitOut_mem : (s.emitOut e).mem = s.mem := by
  obtain ⟨_, h, -⟩ | ⟨_, -, h⟩ := s.emitOut_cases e <;> rw [h]

/-- An output call ends the run with IllegalIO or leaves the run state alone. -/
theorem State.emitOut_run : (s.emitOut e).run = s.run ∨ (s.emitOut e).run = .aborted .illegalIO := by
  obtain ⟨_, h, -⟩ | ⟨_, -, h⟩ := s.emitOut_cases e
  · exact .inl (by rw [h])
  · exact .inr (by rw [h])

/-- An output call adds its event to the output sequence or nothing. -/
theorem State.emitOut_output : (s.emitOut e).output = s.output ++ [e] ∨ (s.emitOut e).output = s.output := by
  obtain ⟨_, h, -⟩ | ⟨_, -, h⟩ := s.emitOut_cases e
  · exact .inl (by rw [h])
  · exact .inr (by rw [h])

@[simp] theorem State.emitDump_regs : (s.emitDump d).regs = s.regs := by cases d <;> rfl

@[simp] theorem State.emitDump_pc : (s.emitDump d).pc = s.pc := by cases d <;> rfl

@[simp] theorem State.emitDump_mem : (s.emitDump d).mem = s.mem := by cases d <;> rfl

@[simp] theorem State.emitDump_output : (s.emitDump d).output = s.output := by cases d <;> rfl

end

/-! ### What a body can do -/

/-- The register an instruction writes as a whole Word in its r-index, BRS's link included (10_state.md R33). -/
def destinationOf : Instr → Option Reg
  | .ld r _ _ | .ldi r _ _ | .add r _ _ | .sub r _ _ | .mul r _ _ | .div r _ _ | .bor r _ _ | .band r _ _
  | .shl r _ _ | .shr r _ _ | .brs r _ _ => some r
  | .st _ _ _ | .inDec _ _ | .inChr _ _ | .outDec _ _ | .outChr _ _ | .halt _ _ | .djmp _ _ | .jrel _ _ | .jmp _ _
  | .brz _ _ _ | .brn _ _ _ | .nop _ _ _ _ _ => none

theorem destinationOf_eq_some {i : Instr} {q : Reg} (h : destinationOf i = some q) :
    ∃ x k, i = .ld q x k ∨ i = .ldi q x k ∨ i = .add q x k ∨ i = .sub q x k ∨ i = .mul q x k ∨ i = .div q x k ∨
      i = .bor q x k ∨ i = .band q x k ∨ i = .shl q x k ∨ i = .shr q x k ∨ i = .brs q x k := by
  cases i with
  | ld r x k | ldi r x k | add r x k | sub r x k | mul r x k | div r x k | bor r x k | band r x k | shl r x k
  | shr r x k | brs r x k => cases h; exact ⟨x, k, by simp⟩
  | st | inDec | inChr | outDec | outChr | halt | djmp | jrel | jmp | brz | brn | nop => cases h

/-- The control transfers, which may move the PC (41_cycle.md R173). -/
def isTransfer : Instr → Bool
  | .djmp _ _ | .jrel _ _ | .jmp _ _ | .brz _ _ _ | .brn _ _ _ | .brs _ _ _ => true
  | .ld _ _ _ | .ldi _ _ _ | .st _ _ _ | .add _ _ _ | .sub _ _ _ | .mul _ _ _ | .div _ _ _ | .bor _ _ _
  | .band _ _ _ | .shl _ _ _ | .shr _ _ _ | .inDec _ _ | .inChr _ _ | .outDec _ _ | .outChr _ _ | .halt _ _
  | .nop _ _ _ _ _ => false

theorem isTransfer_cases {i : Instr} (h : isTransfer i = true) :
    ∃ r x k, i = .djmp x k ∨ i = .jrel x k ∨ i = .jmp x k ∨ i = .brz r x k ∨ i = .brn r x k ∨ i = .brs r x k := by
  cases i with
  | djmp x k | jrel x k | jmp x k => exact ⟨.r0, x, k, by simp⟩
  | brz r x k | brn r x k | brs r x k => exact ⟨r, x, k, by simp⟩
  | ld | ldi | st | add | sub | mul | div | bor | band | shl | shr | inDec | inChr | outDec | outChr | halt | nop =>
    cases h

/-- Everything the body of `i` can make of the state `s`; an effect that a frame statement asks about names the
instructions that have it. -/
inductive BodyEffect (i : Instr) (s : State) : State → Prop
  | unchanged : BodyEffect i s s
  | warned (w : Warning) : BodyEffect i s (s.warn w)
  | wroteReg {q : Reg} (v : Word) (hi : destinationOf i = some q) : BodyEffect i s (s.setReg q v)
  | stored {r x : Reg} {k : Addr} (v : Word) (hi : i = .st r x k) (ha : legalAddress (s.sxInt x k)) :
      BodyEffect i s (s.setWord (s.sxInt x k).toNat v)
  | jumped (w : Word) (hi : isTransfer i = true) : BodyEffect i s (s.orWarn (s.setPC w))
  | dumpedAndJumped {x : Reg} {k : Addr} (e : TraceEvent) (w : Word) (hi : i = .djmp x k) :
      BodyEffect i s ((s.emitTrace e).orWarn ((s.emitTrace e).setPC w))
  | linkedAndJumped {q x : Reg} {k : Addr} (w : Word) (hi : i = .brs q x k) :
      BodyEffect i s ((s.storePC q).orWarn ((s.storePC q).setPC w))
  | halted {v : Verbosity} {k : Addr} (hi : i = .halt v k) : BodyEffect i s ((s.emitDump v).setRun .halted)
  | emitted {x : Reg} {k : Addr} {e : OutEvent} (he : e.inRange = true) (hi : i = .outDec x k ∨ i = .outChr x k) :
      BodyEffect i s (s.emitOut e)
  | waited (rest : List InAnswer) (tok : List Byte) : BodyEffect i s (s.setInput rest (some tok))
  | inputAborted {x : Reg} {k : Addr} {q : AbortReason} (rest : List InAnswer) (hq : q = .endOfInput ∨ q = .illegalIO)
      (hi : i = .inDec x k ∨ i = .inChr x k) : BodyEffect i s ((s.setInput rest none).abort q)
  | tokenWarned (rest : List InAnswer) (w : Warning) : BodyEffect i s ((s.setInput rest none).warn w)
  | tokenStored {x : Reg} {k : Addr} (rest : List InAnswer) (v : Word) (hi : i = .inDec x k)
      (ha : legalAddress (s.sxInt x k)) : BodyEffect i s ((s.setInput rest none).setWord (s.sxInt x k).toNat v)
  | byteRead {x : Reg} {k : Addr} (rest : List InAnswer) (b : Byte) (hi : i = .inChr x k) :
      BodyEffect i s ((s.setInput rest none).storeIOByte x b)

section
variable {i : Instr} {s : State} {r x : Reg} {k : Addr}

theorem BodyEffect.load (hi : destinationOf i = some r) :
    BodyEffect i s (s.orWarn ((s.readOperand x k).map (s.setReg r))) := by
  obtain ⟨-, h⟩ | ⟨-, h⟩ := s.load_cases x k (s.setReg r) <;> rw [h]
  exacts [.wroteReg _ hi, .warned _]

theorem BodyEffect.arith {op : Word → Word → Except Warning Word} (hi : destinationOf i = some r) :
    BodyEffect i s (s.arith op r x k) := by
  obtain ⟨-, v, -, h⟩ | ⟨-, w, -, h⟩ | ⟨-, h⟩ := s.arith_cases op r x k <;> rw [h]
  exacts [.wroteReg v hi, .warned w, .warned _]

theorem BodyEffect.shift {op : Word → Int → Except Warning Word} (hi : destinationOf i = some r) :
    BodyEffect i s (s.shift op r x k) := by
  obtain ⟨v, -, h⟩ | ⟨w, -, h⟩ := s.shift_cases op r x k <;> rw [h]
  exacts [.wroteReg v hi, .warned w]

theorem BodyEffect.store {v : Word} (hi : i = .st r x k) : BodyEffect i s (s.orWarn (s.writeOperand x k v)) := by
  obtain ⟨ha, h⟩ | ⟨-, h⟩ := s.store_cases x k v <;> rw [h]
  exacts [.stored v hi ha, .warned _]

end

/-- The signed value of a Word is representable on 20 bits (00_scope.md R23, 40_alu.md R133). -/
theorem isRepresentable_signed (m : Word) : isRepresentable (signed m) = true := by
  have hlo : -524288 ≤ signed m := BitVec.le_toInt m
  have hhi : signed m < 524288 := BitVec.toInt_lt
  simp only [isRepresentable, decide_eq_true_eq]
  omega

theorem execInDec_effect {x : Reg} {k : Addr} {s t : State} (h : execInDec x k s = .next t) :
    BodyEffect (.inDec x k) s t := by
  obtain ⟨e, rest, hr, ⟨tok, -, rfl⟩ | ⟨q, rfl, rfl⟩ | ⟨_, -, ⟨-, rfl⟩ | ⟨v, -, ⟨ha, rfl⟩ | ⟨-, rfl⟩⟩⟩⟩ :=
    execInDec_cases h
  · exact .waited rest tok
  · exact .inputAborted rest (readToken_abort hr) (.inl rfl)
  · exact .tokenWarned rest _
  · exact .tokenStored rest v rfl ha
  · exact .tokenWarned rest _

theorem execInChr_effect {x : Reg} {k : Addr} {s t : State} (h : execInChr x k s = .next t) :
    BodyEffect (.inChr x k) s t := by
  obtain ⟨-, rfl⟩ | ⟨_, hq, rfl⟩ | ⟨b, rest, -, rfl⟩ := execInChr_cases h
  · exact .waited [] []
  · exact .inputAborted _ hq (.inr rfl)
  · exact .byteRead rest b rfl

/-- The inversion of a body: what it answers is one of the effects its instruction has. -/
theorem exec_effect {i : Instr} {s t : State} (h : exec i s = .next t) : BodyEffect i s t := by
  cases i with
  | ld => cases h; exact .load rfl
  | ldi => cases h; exact .wroteReg _ rfl
  | st => cases h; exact .store rfl
  | add | sub | mul | div | bor | band => cases h; exact .arith rfl
  | shl | shr => cases h; exact .shift rfl
  | inDec => exact execInDec_effect h
  | inChr x k => exact execInChr_effect (k := k) h
  | outDec x k =>
    cases h
    obtain ⟨-, h⟩ | ⟨-, h⟩ := s.load_cases x k fun m => s.emitOut (.outDec (signed m)) <;> rw [h]
    exacts [.emitted (isRepresentable_signed _) (.inl rfl), .warned _]
  | outChr x k => cases h; exact .emitted (k := k) rfl (.inr rfl)
  | halt v k => cases h; exact .halted (k := k) rfl
  | djmp => cases h; exact .dumpedAndJumped _ _ rfl
  | jrel | jmp => cases h; exact .jumped _ rfl
  | brz =>
    cases h
    split
    exacts [.jumped _ rfl, .unchanged]
  | brn =>
    cases h
    split
    exacts [.unchanged, .jumped _ rfl]
  | brs => cases h; exact .linkedAndJumped _ rfl
  | nop => cases h; exact .unchanged

/-! ### Registers -/

theorem withLowByte_getLsbD (w : Word) (b : Byte) {j : Nat} (hj : j < 20) :
    (withLowByte w b).getLsbD j = if j < 8 then b.getLsbD j else w.getLsbD j := by
  rw [withLowByte, BitVec.getLsbD_append]
  split
  · rfl
  · rw [BitVec.getLsbD_extractLsb', decide_eq_true (by omega : j - 8 < 12), Bool.true_and,
      Nat.add_sub_cancel' (by omega)]

/-- A byte written to a register keeps the register's upper 12 bits (10_state.md R34). -/
theorem withLowByte_upper (w : Word) (b : Byte) : (withLowByte w b).extractLsb' 8 12 = w.extractLsb' 8 12 := by
  apply BitVec.eq_of_getLsbD_eq
  intro j hj
  rw [BitVec.getLsbD_extractLsb', BitVec.getLsbD_extractLsb', withLowByte_getLsbD w b (by omega), if_neg (by omega)]

/-- Reading a register after one is written. -/
theorem RegFile.get_set (f : RegFile) (i q : Reg) (v : Word) : (f.set i v).get q = if q = i then v else f.get q := by
  split
  · subst q; exact f.get_set_same i v
  · exact f.get_set_ne v ‹_›

/-- A register that a write changes is the one written. -/
theorem RegFile.eq_of_get_set_ne {f : RegFile} {i q : Reg} {v : Word} (h : (f.set i v).get q ≠ f.get q) : q = i := by
  by_contra hq
  exact h (f.get_set_ne v hq)

/-- Settles O38: reads of written registers, and the bits of the two byte operations. -/
theorem registerByteAccess : Obligations.RegisterByteAccess := by
  intro s i b
  refine ⟨fun q v => s.regs.get_set i q v, fun j hj => ?_, fun q hq => s.regs.get_set_ne _ hq, fun j hj => ?_⟩
  · rw [State.storeIOByte_regs, RegFile.get_set_same, withLowByte_getLsbD _ _ hj]; rfl
  · rw [State.loadSignificantIOByte, BitVec.getLsbD_extractLsb', decide_eq_true hj, Bool.true_and]; rfl

/-- A register that a body changes is the instruction's destination, or the one IO r=1 puts a byte in. -/
theorem BodyEffect.changed_reg {i : Instr} {s t : State} {q : Reg} (h : BodyEffect i s t)
    (hq : t.regs.get q ≠ s.regs.get q) :
    destinationOf i = some q ∨
      ∃ k, i = .inChr q k ∧ (t.regs.get q).extractLsb' 8 12 = (s.regs.get q).extractLsb' 8 12 := by
  cases h with
  | wroteReg v hi => cases RegFile.eq_of_get_set_ne hq; exact .inl hi
  | linkedAndJumped w hi =>
    rw [State.jump_regs] at hq
    cases RegFile.eq_of_get_set_ne hq
    subst hi
    exact .inl rfl
  | byteRead rest b hi =>
    cases RegFile.eq_of_get_set_ne hq
    refine .inr ⟨_, hi, ?_⟩
    rw [State.storeIOByte_regs, RegFile.get_set_same, withLowByte_upper]; rfl
  | unchanged | warned | stored | jumped | dumpedAndJumped | halted | emitted | waited | inputAborted | tokenWarned
  | tokenStored => simp at hq

/-- Settles O54: by the effects a body can have, only three write a register. -/
theorem onlyTheNamedRegisterChanges : Obligations.OnlyTheNamedRegisterChanges := by
  intro i s t q h hq
  obtain hi | ⟨k, hi, hbits⟩ := (exec_effect h).changed_reg hq
  · obtain ⟨x, k, hi⟩ := destinationOf_eq_some hi
    exact ⟨x, k, by tauto⟩
  · exact ⟨.r0, k, by tauto⟩

/-! ### PC and run state -/

theorem aluAdd_eq_add (a b : Word) : aluAdd a b = a + b := by
  apply BitVec.eq_of_toNat_eq
  rw [aluAdd, wrap20, ← Int.natCast_add, BitVec.ofInt_natCast, BitVec.toNat_ofNat, BitVec.toNat_add]

theorem zext20_eq_ofNat (a : Addr) : zext20 a = BitVec.ofNat 20 a.toNat := by
  apply BitVec.eq_of_toNat_eq
  rw [zext20, BitVec.toNat_setWidth, BitVec.toNat_ofNat]

/-- The PC's target after an index: the low 8 bits of the sum (10_state.md R40). -/
theorem trunc8_index (a : Addr) (w : Word) :
    trunc8 (BitVec.ofNat 20 a.toNat + w) = BitVec.ofNat 8 (a.toNat + w.toNat) := by
  apply BitVec.eq_of_toNat_eq
  simp only [trunc8, BitVec.toNat_setWidth, BitVec.toNat_add, BitVec.toNat_ofNat]
  omega

/-- Settles O39: the check of setPC is read off `State.setPC_ok` and `State.setPC_error`. -/
theorem pcPrimitives : Obligations.PcPrimitives := by
  intro s i w
  have hindex : s.indexPC w = s.setPC (BitVec.ofNat 20 s.pc.toNat + w) := by
    rw [State.indexPC, aluAdd_eq_add, zext20_eq_ofNat]
  have hinc : s.pc + 1 = BitVec.ofNat 8 ((s.pc.toNat + 1) % 256) := by
    apply BitVec.eq_of_toNat_eq
    simp [BitVec.toNat_add]
  refine ⟨?_, ?_, fun h => State.setPC_ok.mpr ⟨h, rfl⟩, fun h => State.setPC_error.mpr ⟨h, rfl⟩, fun h => ?_,
    fun h => ?_⟩
  · rw [← zext20_eq_ofNat]; rfl
  · rw [← hinc]; rfl
  · rw [hindex, ← trunc8_index]; exact State.setPC_ok.mpr ⟨h, rfl⟩
  · rw [hindex]; exact State.setPC_error.mpr ⟨h, rfl⟩

theorem BodyEffect.pc_cases {i : Instr} {s t : State} (h : BodyEffect i s t) :
    t.pc = s.pc ∨ isTransfer i = true := by
  cases h with
  | jumped w hi => exact .inr hi
  | dumpedAndJumped e w hi | linkedAndJumped w hi => subst hi; exact .inr rfl
  | unchanged | warned | wroteReg | stored | halted | emitted | waited | inputAborted | tokenWarned | tokenStored
  | byteRead => left; simp

/-- How a body can end the run: BR r=0 halts it, and IO aborts it. -/
theorem BodyEffect.run_cases {i : Instr} {s t : State} (h : BodyEffect i s t) :
    t.run = s.run ∨ ∃ (v : Verbosity) (x : Reg) (k : Addr),
      (i = .halt v k ∧ t.run = .halted) ∨
      ((i = .inDec x k ∨ i = .inChr x k) ∧ (t.run = .aborted .endOfInput ∨ t.run = .aborted .illegalIO)) ∨
      ((i = .outDec x k ∨ i = .outChr x k) ∧ t.run = .aborted .illegalIO) := by
  cases h with
  | @halted v k hi => exact .inr ⟨v, .r0, k, .inl ⟨hi, rfl⟩⟩
  | @emitted x k e he hi =>
    exact (s.emitOut_run e).imp_right fun habort => ⟨.none, x, k, .inr (.inr ⟨hi, habort⟩)⟩
  | @inputAborted x k q rest hq hi => exact .inr ⟨.none, x, k, .inr (.inl ⟨hi, by simpa using hq⟩)⟩
  | unchanged | warned | wroteReg | stored | jumped | dumpedAndJumped | linkedAndJumped | waited | tokenWarned
  | tokenStored | byteRead => left; simp

/-- Settles O55, by the effects a body can have. -/
theorem onlyTransfersMoveThePcOrEndTheRun : Obligations.OnlyTransfersMoveThePcOrEndTheRun := by
  intro i s t h
  have heff := exec_effect h
  exact ⟨fun hpc => isTransfer_cases (heff.pc_cases.resolve_left hpc), fun hrun => heff.run_cases.resolve_left hrun⟩

/-! ### The parts of a step -/

theorem runBody_of_exec {f : Fetched} {s t : State} (h : exec (decode f.word) s = .next t) :
    runBody f s = .next (finishCycle f s t) := by
  simp [runBody, h]

/-- The cycle that passes the limit aborts before its fetch (41_cycle.md R171). -/
theorem cycle_of_limit {s : State} (h : 200 ≤ s.count) :
    cycle s = .next (s.startCycle.abort .instructionLimitExceeded).endRun := by
  unfold cycle
  exact if_pos (Nat.lt_succ_of_le h)

/-- Every other cycle fetches, increments the PC and runs the body (R170). -/
theorem cycle_of_lt {s : State} (h : s.count < 200) :
    cycle s = runBody ⟨s.startCycle.pc, s.startCycle.fetch⟩ s.startCycle.incrementPC := by
  unfold cycle
  exact if_neg (Nat.not_lt_of_le h)

theorem runStep_of_held {s : State} {f : Fetched} (h : s.fetched = some f) : runStep s = runBody f s := by
  simp [runStep, h]

theorem runStep_of_not_held {s : State} (h : s.fetched = none) : runStep s = cycle s := by
  simp [runStep, h]

theorem step_of_running {s : State} (h : s.run = .running) : step s = runStep s := by
  simp [step, h]

theorem step_of_terminal {s : State} (h : s.run ≠ .running) : step s = .next s := by
  unfold step
  split
  · exact absurd ‹_› h
  all_goals rfl

/-! ### The invariant -/

theorem State.inv_iff (s : State) :
    s.inv = true ↔
      s.mem.wf = true ∧ s.countOk = true ∧ s.heldOk = true ∧ s.output.all OutEvent.inRange = true := by
  simp [State.inv, and_assoc]

/-- Short of the limit's abort the counter's part of the invariant is the bound. -/
theorem State.countOk_iff {s : State} (h : s.run ≠ .aborted .instructionLimitExceeded) :
    s.countOk = true ↔ s.count ≤ 200 := by
  simp [State.countOk, h]

theorem State.heldOk_none {s : State} (h : s.fetched = none) : s.heldOk = true ↔ s.wait = none := by
  simp [State.heldOk, h]

theorem State.heldOk_some {s : State} {f : Fetched} (h : s.fetched = some f) :
    s.heldOk = true ↔ (s.run = .running ∧ f.word = s.mem.read f.addr.toNat ∧ s.pc = f.addr + 1) ∧
      heldBody (decode f.word) s.wait = true := by
  simp [State.heldOk, h]

theorem heldBody_inDec {x : Reg} {k : Addr} {tok : List Byte} :
    heldBody (.inDec x k) (some tok) = tok.all fun b => !isSeparator b := rfl

/-- Only an input body is ever held. -/
theorem input_of_heldBody {i : Instr} {o : Option (List Byte)} (h : heldBody i o = true) :
    ∃ x k, i = .inDec x k ∨ i = .inChr x k := by
  unfold heldBody at h
  split at h
  · exact ⟨_, _, .inl rfl⟩
  · exact ⟨_, _, .inr rfl⟩
  · cases h

/-- A store at a legal address keeps the canonical form. -/
theorem State.setWord_mem_wf {s : State} {a : Int} (v : Word) (hm : s.mem.wf = true) (ha : legalAddress a) :
    (s.setWord a.toNat v).mem.wf = true := by
  obtain ⟨h0, h1⟩ := ha
  simp only [Config.memWords] at h1
  exact Memory.wf_write v hm (by omega)

theorem BodyEffect.mem_wf {i : Instr} {s t : State} (h : BodyEffect i s t) (hm : s.mem.wf = true) :
    t.mem.wf = true := by
  cases h with
  | stored v hi ha => exact State.setWord_mem_wf v hm ha
  | tokenStored rest v hi ha => exact State.setWord_mem_wf (s := s.setInput rest none) v hm ha
  | unchanged | warned | wroteReg | jumped | dumpedAndJumped | linkedAndJumped | halted | emitted | waited
  | inputAborted | tokenWarned | byteRead => simpa using hm

theorem BodyEffect.output_inRange {i : Instr} {s t : State} (h : BodyEffect i s t)
    (ho : s.output.all OutEvent.inRange = true) : t.output.all OutEvent.inRange = true := by
  cases h with
  | @emitted x k e he hi => obtain h | h := s.emitOut_output e <;> simp [h, he, ho]
  | unchanged | warned | wroteReg | stored | jumped | dumpedAndJumped | linkedAndJumped | halted | waited
  | inputAborted | tokenWarned | tokenStored | byteRead => simpa using ho

/-- No body ends in the abort that passing the limit gives. -/
theorem BodyEffect.run_ne_limit {i : Instr} {s t : State} (h : BodyEffect i s t) (hs : s.run = .running) :
    t.run ≠ .aborted .instructionLimitExceeded := by
  intro ht
  obtain hrun | ⟨v, x, k, ⟨-, hrun⟩ | ⟨-, hrun | hrun⟩ | ⟨-, hrun⟩⟩ := h.run_cases <;>
    simp [ht, hs] at hrun

/-- Only the input bodies touch the wait; every other leaves it as it is. -/
theorem exec_wait_of_not_input {i : Instr} {s t : State} (h : exec i s = .next t)
    (hi : ¬∃ x k, i = .inDec x k ∨ i = .inChr x k) : t.wait = s.wait := by
  obtain ⟨-, -, hwait, -⟩ := onlyIoTouchesThePorts i s t h
  by_contra hw
  exact hi (hwait (.inr hw))

theorem execInDec_wait {x : Reg} {k : Addr} {s t : State} {tok : List Byte}
    (hs : s.wait = none ∨ heldBody (.inDec x k) s.wait = true) (h : execInDec x k s = .next t)
    (hw : t.wait = some tok) :
    (∃ rest, t = s.setInput rest (some tok)) ∧ heldBody (.inDec x k) (some tok) = true := by
  have htaken : ((s.wait.getD []).all fun b => !isSeparator b) = true := by
    cases hwait : s.wait with
    | none => rfl
    | some taken => simpa [hwait, heldBody_inDec] using hs
  obtain ⟨e, rest, hr, ⟨tok', rfl, rfl⟩ | ⟨_, -, rfl⟩ | ⟨_, -, ⟨-, rfl⟩ | ⟨_, -, ⟨-, rfl⟩ | ⟨-, rfl⟩⟩⟩⟩ :=
    execInDec_cases h
  · cases hw; exact ⟨⟨rest, rfl⟩, readToken_wait htaken hr⟩
  all_goals cases hw

theorem execInChr_wait {x : Reg} {k : Addr} {s t : State} {tok : List Byte} (h : execInChr x k s = .next t)
    (hw : t.wait = some tok) :
    (∃ rest, t = s.setInput rest (some tok)) ∧ heldBody (.inChr x k) (some tok) = true := by
  obtain ⟨-, rfl⟩ | ⟨_, -, rfl⟩ | ⟨_, _, -, rfl⟩ := execInChr_cases h
  · cases hw; exact ⟨⟨[], rfl⟩, rfl⟩
  all_goals cases hw

/-- A body that started fresh, or was held as the invariant has it, and now waits: it moved the input channel alone, and
what it has taken is part of a token (41_cycle.md R179). -/
theorem exec_wait_some {i : Instr} {s t : State} {tok : List Byte} (hs : s.wait = none ∨ heldBody i s.wait = true)
    (h : exec i s = .next t) (hw : t.wait = some tok) :
    (∃ rest, t = s.setInput rest (some tok)) ∧ heldBody i (some tok) = true := by
  by_cases hi : ∃ x k, i = .inDec x k ∨ i = .inChr x k
  · obtain ⟨x, k, rfl | rfl⟩ := hi
    · exact execInDec_wait hs h hw
    · exact execInChr_wait (k := k) h hw
  · have hnone : s.wait = none := hs.resolve_right fun hheld => hi (input_of_heldBody hheld)
    rw [exec_wait_of_not_input h hi, hnone] at hw
    cases hw

/-- What the invariant makes of a state in which the body of the fetched Word `f` starts, be it fresh or resumed. -/
structure BodyReady (f : Fetched) (s : State) : Prop where
  mem : s.mem.wf = true
  run : s.run = .running
  count : s.count ≤ 200
  word : f.word = s.mem.read f.addr.toNat
  pc : s.pc = f.addr + 1
  wait : s.wait = none ∨ heldBody (decode f.word) s.wait = true
  output : s.output.all OutEvent.inRange = true

/-- A state that differs from the end of a body in the held cycle and the trace alone meets the invariant as soon as its
hold is coherent. -/
theorem BodyReady.inv_of_heldOk {f : Fetched} {s t u : State} (hs : BodyReady f s)
    (h : exec (decode f.word) s = .next t)
    (hmem : u.mem = t.mem) (hrun : u.run = t.run) (hcount : u.count = t.count) (hout : u.output = t.output)
    (hheld : u.heldOk = true) : u.inv = true := by
  have heff := exec_effect h
  obtain ⟨htcount, -⟩ := onlyIoTouchesThePorts _ s t h
  have hlimit : u.run ≠ .aborted .instructionLimitExceeded := hrun ▸ heff.run_ne_limit hs.run
  refine u.inv_iff.mpr ⟨hmem ▸ heff.mem_wf hs.mem, (State.countOk_iff hlimit).mpr ?_, hheld,
    hout ▸ heff.output_inRange hs.output⟩
  rw [hcount, htcount]; exact hs.count

/-- A body that ends the run does not wait. -/
theorem BodyReady.wait_eq_none {f : Fetched} {s t : State} (hs : BodyReady f s) (h : exec (decode f.word) s = .next t)
    (ht : t.run ≠ .running) : t.wait = none := by
  cases hw : t.wait with
  | none => rfl
  | some tok =>
    obtain ⟨⟨rest, rfl⟩, -⟩ := exec_wait_some hs.wait h hw
    exact absurd hs.run ht

/-- The end of the cycle meets the invariant, whichever way it ends. -/
theorem BodyReady.runBody_inv {f : Fetched} {s t : State} (hs : BodyReady f s) (h : runBody f s = .next t) :
    t.inv = true := by
  obtain ⟨u, hu, rfl⟩ := runBody_next h
  obtain ⟨-, hw, he⟩ | ⟨-, hw, he⟩ | ⟨hrun, he⟩ | ⟨q, hrun, he⟩ := finishCycle_cases f s u <;> rw [he]
  · obtain ⟨tok, hw⟩ := Option.ne_none_iff_exists'.mp hw
    obtain ⟨⟨rest, rfl⟩, hbody⟩ := exec_wait_some hs.wait hu hw
    exact hs.inv_of_heldOk hu rfl rfl rfl rfl ((State.heldOk_some rfl).mpr ⟨⟨hs.run, hs.word, hs.pc⟩, hbody⟩)
  · exact hs.inv_of_heldOk hu rfl rfl rfl rfl ((State.heldOk_none rfl).mpr hw)
  · have hw := hs.wait_eq_none hu (by simp [hrun])
    exact hs.inv_of_heldOk hu rfl rfl rfl rfl ((State.heldOk_none rfl).mpr hw)
  · have hw := hs.wait_eq_none hu (by simp [hrun])
    exact hs.inv_of_heldOk hu rfl rfl rfl rfl ((State.heldOk_none rfl).mpr hw)

/-- A held cycle is ready to resume. -/
theorem bodyReady_of_held {s : State} {f : Fetched} (hinv : s.inv = true) (hf : s.fetched = some f) :
    BodyReady f s := by
  obtain ⟨hmem, hcount, hheld, hout⟩ := s.inv_iff.mp hinv
  obtain ⟨⟨hrun, hword, hpc⟩, hbody⟩ := (State.heldOk_some hf).mp hheld
  exact ⟨hmem, hrun, (State.countOk_iff (by simp [hrun])).mp hcount, hword, hpc, .inr hbody, hout⟩

/-- The state after the fetch and the PC increment of a new cycle is ready for the body. -/
theorem bodyReady_of_fetch {s : State} (hmem : s.mem.wf = true) (hrun : s.run = .running)
    (hout : s.output.all OutEvent.inRange = true) (hcount : s.count < 200) :
    BodyReady ⟨s.startCycle.pc, s.startCycle.fetch⟩ s.startCycle.incrementPC :=
  ⟨hmem, hrun, hcount, rfl, rfl, .inl rfl, hout⟩

theorem cycle_inv {s t : State} (hinv : s.inv = true) (hrun : s.run = .running) (hf : s.fetched = none)
    (h : cycle s = .next t) : t.inv = true := by
  obtain ⟨hmem, hcount, -, hout⟩ := s.inv_iff.mp hinv
  rw [State.countOk_iff (by simp [hrun])] at hcount
  obtain hlimit | hlt := le_or_gt 200 s.count
  · rw [cycle_of_limit hlimit] at h
    cases h
    have hlast : s.count = 200 := Nat.le_antisymm hcount hlimit
    refine (State.inv_iff _).mpr ⟨hmem, by simp [State.countOk, hlast], ?_, hout⟩
    exact (State.heldOk_none (by simpa using hf)).mpr rfl
  · rw [cycle_of_lt hlt] at h
    exact (bodyReady_of_fetch hmem hrun hout hlt).runBody_inv h

/-- Settles O49: a terminal step changes nothing, and a running one ends a cycle from a state that is ready for its
body, resumed or fresh, or passes the limit. -/
theorem everyStepKeepsTheInvariant : Obligations.EveryStepKeepsTheInvariant := by
  intro s t hinv h
  by_cases hrun : s.run = .running
  · rw [step_of_running hrun] at h
    cases hf : s.fetched with
    | some f => rw [runStep_of_held hf] at h; exact (bodyReady_of_held hinv hf).runBody_inv h
    | none => rw [runStep_of_not_held hf] at h; exact cycle_inv hinv hrun hf h
  · rw [step_of_terminal hrun] at h
    cases h
    exact hinv

/-- Settles O50: reset is a start state with empty memory, and the invariant does not look at the input channel. -/
theorem invariantHoldsAtReset : Obligations.InvariantHoldsAtReset :=
  ⟨State.start_inv rfl, fun _ _ h => h⟩

/-- Settles O60: the empty image meets the launch premise and places nothing. -/
theorem resetIsTheStartOfTheEmptyImage : Obligations.ResetIsTheStartOfTheEmptyImage := by
  have hpremise : Image.empty.premise = true := Image.empty.premise_iff.mpr (by simp [Image.empty])
  refine ⟨by rw [boot, if_pos hpremise]; rfl, rfl, rfl, fun i => ?_⟩
  cases i <;> rfl

/-! ### The canonical form of memory -/

/-- The form's lower bound may be taken to be the first address listed. -/
theorem Memory.wfFrom_head {lo k : Nat} {v : Word} {m : Memory} (h : Memory.wfFrom lo ((k, v) :: m) = true) :
    Memory.wfFrom k ((k, v) :: m) = true := by
  obtain ⟨⟨-, hk⟩, hm⟩ := (Memory.wfFrom_cons ..).mp h
  exact (Memory.wfFrom_cons ..).mpr ⟨⟨le_rfl, hk⟩, hm⟩

/-- The address at the head of a canonical memory reads as something other than 0. -/
theorem Memory.read_head_ne {lo k : Nat} {v : Word} {m : Memory} (h : Memory.wfFrom lo ((k, v) :: m) = true) :
    Memory.read ((k, v) :: m) k ≠ 0 := by
  obtain ⟨⟨-, -, hv⟩, -⟩ := (Memory.wfFrom_cons ..).mp h
  rwa [Memory.read_cons, if_pos rfl]

/-- Of two canonical memories that read the same, neither starts before the other. -/
theorem Memory.head_le {lo lo' k k' : Nat} {v v' : Word} {m m' : Memory}
    (hm : Memory.wfFrom lo ((k, v) :: m) = true) (hm' : Memory.wfFrom lo' ((k', v') :: m') = true)
    (h : ∀ a, Memory.read ((k, v) :: m) a = Memory.read ((k', v') :: m') a) : k' ≤ k := by
  by_contra hlt
  exact Memory.read_head_ne hm ((h k).trans (Memory.read_below (Memory.wfFrom_head hm') (by omega)))

/-- Two canonical memories that read the same at every number are the same list. -/
theorem Memory.eq_of_read_eq {lo lo' : Nat} {m m' : Memory} (hm : Memory.wfFrom lo m = true)
    (hm' : Memory.wfFrom lo' m' = true) (h : ∀ a, m.read a = m'.read a) : m = m' := by
  induction m generalizing lo lo' m' with
  | nil =>
    cases m' with
    | nil => rfl
    | cons p m' => exact absurd (h p.1).symm (Memory.read_head_ne hm')
  | cons p m ih =>
    obtain ⟨k, v⟩ := p
    cases m' with
    | nil => exact absurd (h k) (Memory.read_head_ne hm)
    | cons p' m' =>
      obtain ⟨k', v'⟩ := p'
      obtain rfl : k = k' :=
        Nat.le_antisymm (Memory.head_le hm' hm fun a => (h a).symm) (Memory.head_le hm hm' h)
      obtain ⟨-, htail⟩ := (Memory.wfFrom_cons ..).mp hm
      obtain ⟨-, htail'⟩ := (Memory.wfFrom_cons ..).mp hm'
      obtain rfl : v = v' := by simpa [Memory.read_cons] using h k
      rw [ih htail htail' fun a => ?_]
      by_cases ha : k = a
      · rw [Memory.read_below htail (by omega), Memory.read_below htail' (by omega)]
      · simpa [Memory.read_cons, ha] using h a

/-- Settles O41, by induction on the lists; outside the address space both read 0. -/
theorem canonicalMemoryIsExtensional : Obligations.CanonicalMemoryIsExtensional := by
  refine ⟨fun m m' hm hm' h => Memory.eq_of_read_eq hm hm' fun a => ?_, fun m a v => Memory.wf_write v⟩
  by_cases ha : a < 256
  · exact h a ha
  · rw [Memory.read_outside hm (by omega), Memory.read_outside hm' (by omega)]

/-! ### Every step answers -/

theorem execInDec_answers (x : Reg) (k : Addr) (s : State) : ∃ t, execInDec x k s = .next t := by
  unfold execInDec
  split
  · exact ⟨_, rfl⟩
  · exact ⟨_, rfl⟩
  · dsimp only
    split <;> exact ⟨_, rfl⟩

theorem execInChr_answers (x : Reg) (k : Addr) (s : State) : ∃ t, execInChr x k s = .next t := by
  unfold execInChr
  split <;> exact ⟨_, rfl⟩

/-- Every instruction has a meaning, and no meaning is a fault or a refusal. -/
theorem exec_answers (i : Instr) (s : State) : ∃ t, exec i s = .next t := by
  cases i with
  | inDec x k => exact execInDec_answers x k s
  | inChr x k => exact execInChr_answers x k s
  | ld | ldi | st | add | sub | mul | div | bor | band | shl | shr | outDec | outChr | halt | djmp | jrel | jmp | brz
  | brn | brs | nop => exact ⟨_, rfl⟩

theorem runBody_answers (f : Fetched) (s : State) : ∃ t, runBody f s = .next t := by
  obtain ⟨u, hu⟩ := exec_answers (decode f.word) s
  exact ⟨_, runBody_of_exec hu⟩

theorem cycle_answers (s : State) : ∃ t, cycle s = .next t := by
  obtain hlimit | hlt := le_or_gt 200 s.count
  · exact ⟨_, cycle_of_limit hlimit⟩
  · rw [cycle_of_lt hlt]; exact runBody_answers _ _

/-- Settles O48: a terminal step answers the same state, and a resumed or fresh cycle ends after its body. -/
theorem everyStepAnswersANextState : Obligations.EveryStepAnswersANextState := by
  intro s
  by_cases hrun : s.run = .running
  · rw [step_of_running hrun]
    cases hf : s.fetched with
    | some f => rw [runStep_of_held hf]; exact runBody_answers f s
    | none => rw [runStep_of_not_held hf]; exact cycle_answers s
  · exact ⟨s, step_of_terminal hrun⟩

/-- Settles O47, by induction on the number of steps. -/
theorem terminalStatesStay : Obligations.TerminalStatesStay := by
  intro s hs
  refine ⟨step_of_terminal hs, fun n => ?_⟩
  induction n with
  | zero => rfl
  | succ n ih => rw [runSteps, step_of_terminal hs]; exact ih

/-! ### The counter and the trace are not read -/

/-- `s` with another counter, and after another past on the trace port. -/
def State.relabel (n : Nat) (l : List TraceEvent) (s : State) : State := { s with count := n, trace := l ++ s.trace }

section
variable (n : Nat) (l : List TraceEvent) (s : State) (x : Reg) (k : Addr) (v : Word)

@[simp] theorem State.reg_relabel (r : Reg) : (s.relabel n l).reg r = s.reg r := rfl

theorem State.emitTrace_relabel (e : TraceEvent) : (s.relabel n l).emitTrace e = (s.emitTrace e).relabel n l := by
  simp [State.emitTrace, State.relabel]

theorem State.emitDump_relabel (d : Verbosity) : (s.relabel n l).emitDump d = (s.emitDump d).relabel n l := by
  cases d with
  | none => rfl
  | memory | registers | both => exact s.emitTrace_relabel n l _

theorem State.emitOut_relabel (e : OutEvent) : (s.relabel n l).emitOut e = (s.emitOut e).relabel n l := by
  obtain ⟨regs, pc, mem, run, count, input, outAnswers, output, warning, wait, fetched, trace⟩ := s
  cases outAnswers with
  | nil => rfl
  | cons a as => cases a <;> rfl

@[simp] theorem State.sx_relabel : (s.relabel n l).sx x k = s.sx x k := by cases x <;> rfl

@[simp] theorem State.sxInt_relabel : (s.relabel n l).sxInt x k = s.sxInt x k := by simp [State.sxInt]

theorem State.readOperand_relabel : (s.relabel n l).readOperand x k = s.readOperand x k := by
  rw [State.readOperand, State.sxInt_relabel]; rfl

/-- A body that may end in a condition commutes with a change of label if its way to succeed does. -/
theorem State.orWarn_map_relabel {α : Type} (e : Except Warning α) (g : α → State) :
    (s.relabel n l).orWarn (e.map fun a => (g a).relabel n l) = (s.orWarn (e.map g)).relabel n l := by
  cases e <;> rfl

theorem State.jump_relabel :
    (s.relabel n l).orWarn ((s.relabel n l).setPC v) = (s.orWarn (s.setPC v)).relabel n l :=
  s.orWarn_map_relabel n l (jumpTarget v) s.setPcRaw

theorem State.store_relabel :
    (s.relabel n l).orWarn ((s.relabel n l).writeOperand x k v) = (s.orWarn (s.writeOperand x k v)).relabel n l := by
  unfold State.writeOperand State.memWrite
  rw [State.sxInt_relabel]
  split <;> rfl

theorem State.arith_relabel (op : Word → Word → Except Warning Word) (r : Reg) :
    (s.relabel n l).arith op r x k = (s.arith op r x k).relabel n l := by
  unfold State.arith
  rw [State.readOperand_relabel]
  cases s.readOperand x k with
  | error w => rfl
  | ok m => exact s.orWarn_map_relabel n l (op (s.reg r) m) (s.setReg r)

theorem State.shift_relabel (op : Word → Int → Except Warning Word) (r : Reg) :
    (s.relabel n l).shift op r x k = (s.shift op r x k).relabel n l := by
  unfold State.shift
  rw [State.sxInt_relabel]
  exact s.orWarn_map_relabel n l (op (s.reg r) (s.sxInt x k)) (s.setReg r)

end

theorem execInDec_relabel {x : Reg} {k : Addr} {s t : State} (n : Nat) (l : List TraceEvent)
    (h : execInDec x k s = .next t) : execInDec x k (s.relabel n l) = .next (t.relabel n l) := by
  unfold execInDec at h ⊢
  have hread : readToken ((s.relabel n l).wait.getD []) (s.relabel n l).input =
      readToken (s.wait.getD []) s.input := rfl
  rw [hread]
  generalize readToken (s.wait.getD []) s.input = p at h ⊢
  obtain ⟨e, rest⟩ := p
  cases e with
  | wait tok => cases h; rfl
  | abort q => cases h; rfl
  | token tok =>
    dsimp only at h ⊢
    cases hv : tokenValue tok with
    | none => rw [hv] at h; cases h; rfl
    | some v =>
      rw [hv] at h
      cases h
      exact congrArg Host.Outcome.next ((s.setInput rest none).store_relabel n l x k v)

theorem execInChr_relabel {x : Reg} {k : Addr} {s t : State} (n : Nat) (l : List TraceEvent)
    (h : execInChr x k s = .next t) : execInChr x k (s.relabel n l) = .next (t.relabel n l) := by
  obtain ⟨regs, pc, mem, run, count, input, outAnswers, output, warning, wait, fetched, trace⟩ := s
  cases input with
  | nil => cases h; rfl
  | cons a as =>
    cases a with
    | byte b adv => cases adv <;> cases h <;> rfl
    | eof => cases h; rfl
    | err => cases h; rfl

/-- A body reads neither the counter nor the trace: it commutes with a change of either. -/
theorem exec_relabel {i : Instr} {s t : State} (n : Nat) (l : List TraceEvent) (h : exec i s = .next t) :
    exec i (s.relabel n l) = .next (t.relabel n l) := by
  cases i with
  | inDec x k => exact execInDec_relabel n l h
  | inChr x k => exact execInChr_relabel (k := k) n l h
  | nop => cases h; rfl
  | ld r x k =>
    cases h
    refine congrArg Host.Outcome.next ?_
    rw [State.readOperand_relabel]
    exact s.orWarn_map_relabel n l _ (s.setReg r)
  | ldi r x k =>
    cases h
    refine congrArg Host.Outcome.next ?_
    rw [State.sx_relabel]; rfl
  | st r x k => cases h; exact congrArg Host.Outcome.next (s.store_relabel n l x k _)
  | add r x k | sub r x k | mul r x k | div r x k | bor r x k | band r x k =>
    cases h; exact congrArg Host.Outcome.next (s.arith_relabel n l x k _ r)
  | shl r x k | shr r x k => cases h; exact congrArg Host.Outcome.next (s.shift_relabel n l x k _ r)
  | outDec x k =>
    cases h
    refine congrArg Host.Outcome.next ?_
    simp only [State.readOperand_relabel, State.emitOut_relabel]
    exact s.orWarn_map_relabel n l _ fun m => s.emitOut (.outDec (signed m))
  | outChr x k => cases h; exact congrArg Host.Outcome.next (s.emitOut_relabel n l _)
  | halt v k =>
    cases h
    exact congrArg (fun u : State => Host.Outcome.next (u.setRun .halted)) (s.emitDump_relabel n l v)
  | djmp x k =>
    cases h
    refine congrArg Host.Outcome.next ?_
    rw [State.sx_relabel, State.emitTrace_relabel]
    exact (s.emitTrace (.dump s.fullDump)).jump_relabel n l _
  | jrel x k | jmp x k =>
    cases h
    refine congrArg Host.Outcome.next ?_
    rw [State.sx_relabel]
    exact s.jump_relabel n l _
  | brz r x k =>
    cases h
    refine congrArg Host.Outcome.next ?_
    rw [State.sx_relabel, State.reg_relabel]
    split
    exacts [s.jump_relabel n l _, rfl]
  | brn r x k =>
    cases h
    refine congrArg Host.Outcome.next ?_
    rw [State.sx_relabel, State.reg_relabel]
    split
    exacts [rfl, s.jump_relabel n l _]
  | brs r x k =>
    cases h
    refine congrArg Host.Outcome.next ?_
    rw [State.sx_relabel]
    exact (s.storePC r).jump_relabel n l _

/-- `s` after another past on the trace port, the counter kept. -/
def State.withPast (l : List TraceEvent) (s : State) : State := { s with trace := l ++ s.trace }

theorem State.relabel_count (l : List TraceEvent) (s : State) : s.relabel s.count l = s.withPast l := rfl

section
variable (l : List TraceEvent) (s p : State) (f : Fetched)

@[simp] theorem State.withPast_run : (s.withPast l).run = s.run := rfl
@[simp] theorem State.withPast_wait : (s.withPast l).wait = s.wait := rfl
@[simp] theorem State.withPast_fetched : (s.withPast l).fetched = s.fetched := rfl

theorem State.emitTrace_withPast (e : TraceEvent) : (s.withPast l).emitTrace e = (s.emitTrace e).withPast l :=
  s.emitTrace_relabel s.count l e

theorem State.endRun_withPast : (s.withPast l).endRun = s.endRun.withPast l := s.emitTrace_withPast l _

theorem State.operandAddress_withPast (i : Instr) : (s.withPast l).operandAddress i = s.operandAddress i := by
  have hsx : ∀ x k, (s.withPast l).sxInt x k = s.sxInt x k := s.sxInt_relabel s.count l
  cases i with
  | ld _ x k | st _ x k | add _ x k | sub _ x k | mul _ x k | div _ x k | bor _ x k | band _ x k | inDec x k
  | outDec x k => exact congrArg some (hsx x k)
  | ldi | shl | shr | inChr | outChr | halt | djmp | jrel | jmp | brz | brn | brs | nop => rfl

theorem traceRecord_withPast : traceRecord f (p.withPast l) (s.withPast l) = traceRecord f p s := by
  unfold traceRecord
  rw [State.operandAddress_withPast]; rfl

theorem State.completeCycle_withPast :
    State.completeCycle f (p.withPast l) (s.withPast l) = (State.completeCycle f p s).withPast l := by
  unfold State.completeCycle
  rw [traceRecord_withPast]
  exact State.emitTrace_withPast l { s with fetched := none } _

/-- The end of a cycle only adds to the trace. -/
theorem finishCycle_withPast : finishCycle f (p.withPast l) (s.withPast l) = (finishCycle f p s).withPast l := by
  unfold finishCycle
  rw [State.withPast_run, State.withPast_wait]
  cases s.run with
  | running =>
    cases s.wait with
    | none => exact State.completeCycle_withPast l s p f
    | some _ => rfl
  | halted =>
    dsimp only
    rw [State.completeCycle_withPast, State.endRun_withPast]
  | aborted q => exact State.endRun_withPast l { s with run := .aborted q, fetched := none }

end

theorem runBody_withPast {f : Fetched} {s t : State} (l : List TraceEvent) (h : runBody f s = .next t) :
    runBody f (s.withPast l) = .next (t.withPast l) := by
  obtain ⟨u, hu, rfl⟩ := runBody_next h
  obtain ⟨hcount, -⟩ := onlyIoTouchesThePorts _ s u hu
  have hu' := exec_relabel s.count l hu
  rw [← hcount, State.relabel_count, hcount, State.relabel_count] at hu'
  rw [runBody_of_exec hu', finishCycle_withPast]

theorem cycle_withPast {s t : State} (l : List TraceEvent) (h : cycle s = .next t) :
    cycle (s.withPast l) = .next (t.withPast l) := by
  obtain hlimit | hlt := le_or_gt 200 s.count
  · rw [cycle_of_limit hlimit] at h
    cases h
    rw [cycle_of_limit (s := s.withPast l) hlimit]
    exact congrArg Host.Outcome.next (State.endRun_withPast l (s.startCycle.abort .instructionLimitExceeded))
  · rw [cycle_of_lt hlt] at h
    rw [cycle_of_lt (s := s.withPast l) hlt]
    exact runBody_withPast l h

/-- A step only adds to the trace, and what it adds and does does not depend on what stands there. -/
theorem step_withPast {s t : State} (l : List TraceEvent) (h : step s = .next t) :
    step (s.withPast l) = .next (t.withPast l) := by
  by_cases hrun : s.run = .running
  · rw [step_of_running hrun] at h
    rw [step_of_running (by simpa using hrun)]
    cases hf : s.fetched with
    | some f =>
      rw [runStep_of_held hf] at h
      rw [runStep_of_held (f := f) (by simpa using hf)]
      exact runBody_withPast l h
    | none =>
      rw [runStep_of_not_held hf] at h
      rw [runStep_of_not_held (by simpa using hf)]
      exact cycle_withPast l h
  · rw [step_of_terminal hrun] at h
    cases h
    exact step_of_terminal (by simpa using hrun)

/-- Every state is the one with no past on the trace port, put after its past. -/
theorem State.withPast_trace (s : State) (l : List TraceEvent) :
    State.withPast l { s with trace := [] } = { s with trace := l } := by
  simp [State.withPast]

/-- Settles O58: a body commutes with a change of the counter, and the steps with the one trace and with the other are
the step with an empty trace, put after either past. -/
theorem counterAndTraceAreNotRead : Obligations.CounterAndTraceAreNotRead := by
  refine ⟨fun i s t n h => exec_relabel n [] h, fun s t l h => ?_⟩
  obtain ⟨u, hu⟩ := everyStepAnswersANextState { s with trace := [] }
  have hs := step_withPast s.trace hu
  have hl := step_withPast l hu
  rw [State.withPast_trace] at hs hl
  cases h.symm.trans hs
  exact ⟨l ++ u.trace, hl⟩

end Sys2Proof.Machine
end

section
/-! PROOFS. Memory (20_memory.md): the bounds check and the write that goes through it (O40), the store that a fetch sees
(O43), and the memory frame of a body (O53). -/

namespace Sys2Proof.Machine

/-! ### The bounds check -/

theorem legalAddress_iff (a : Int) : legalAddress a ↔ 0 ≤ a ∧ a < 256 := Iff.rfl

theorem legalAddress_natCast (a : Nat) : legalAddress a ↔ a < 256 := by
  rw [legalAddress_iff]; omega

theorem State.memRead_legal (s : State) {a : Nat} (ha : a < 256) : s.memRead a = .ok (s.mem.read a) :=
  State.memRead_ok.mpr ⟨(legalAddress_natCast a).mpr ha, rfl⟩

theorem State.memWrite_legal (s : State) {a : Nat} (v : Word) (ha : a < 256) : s.memWrite a v = .ok (s.setWord a v) :=
  State.memWrite_ok.mpr ⟨(legalAddress_natCast a).mpr ha, rfl⟩

/-- Settles O40: the check decides which of the two ends an access has, and a write to a canonical memory reads back at
its own address alone. -/
theorem memoryAccessWithBoundsCheck : Obligations.MemoryAccessWithBoundsCheck := by
  intro s v
  refine ⟨fun a ha => ?_, fun a ha => ?_⟩
  · have hillegal : ¬legalAddress a := by rw [legalAddress_iff]; omega
    exact ⟨State.memRead_error.mpr ⟨hillegal, rfl⟩, State.memWrite_error.mpr ⟨hillegal, rfl⟩⟩
  · exact ⟨s.memRead_legal ha, s.setWord a v, s.memWrite_legal v ha, rfl,
      fun hm b => Memory.read_write hm a b v⟩

/-! ### A fetch after a store -/

/-- A store to the operand's address, where that is legal. -/
theorem State.store_legal {s : State} {x : Reg} {k : Addr} {a : Nat} (v : Word) (ha : a < 256)
    (h : s.sxInt x k = a) : s.orWarn (s.writeOperand x k v) = s.setWord a v := by
  rw [State.writeOperand, h, s.memWrite_legal v ha]; rfl

theorem exec_st (r x : Reg) (k : Addr) (s : State) :
    exec (.st r x k) s = .next (s.orWarn (s.writeOperand x k (s.regs.get r))) := rfl

/-- Settles O43: the fetch is a read at the address written, which an 8-bit PC can hold. -/
theorem fetchSeesTheStore : Obligations.FetchSeesTheStore := by
  intro r x k s a hm ha h
  refine ⟨s.setWord a (s.regs.get r), by rw [exec_st, State.store_legal _ ha h], fun u hmem hpc => ?_⟩
  have haddr : u.pc.toNat = a := by rw [hpc, BitVec.toNat_ofNat, Nat.mod_eq_of_lt ha]
  rw [State.fetch, haddr, hmem, State.setWord_mem, Memory.read_write_same hm]

/-! ### The memory frame -/

/-- An address that a write at a legal address changes is the one written. -/
theorem Memory.eq_of_read_write_ne {m : Memory} {c : Int} {a : Nat} {v : Word} (hc : legalAddress c)
    (h : (m.write c.toNat v).read a ≠ m.read a) : c = a := by
  obtain ⟨h0, -⟩ := hc
  by_contra hne
  exact h (m.read_write_ne v (by omega))

/-- A body that changes memory is a store to the operand's address, by ST or with the token of IO r=0. -/
theorem BodyEffect.changed_mem {i : Instr} {s t : State} {a : Nat} (h : BodyEffect i s t)
    (ha : t.mem.read a ≠ s.mem.read a) :
    ∃ (r x : Reg) (k : Addr), (i = .st r x k ∨ i = .inDec x k) ∧ s.sxInt x k = a := by
  cases h with
  | stored v hi hlegal => exact ⟨_, _, _, .inl hi, Memory.eq_of_read_write_ne hlegal ha⟩
  | tokenStored rest v hi hlegal => exact ⟨.r0, _, _, .inr hi, Memory.eq_of_read_write_ne hlegal ha⟩
  | unchanged | warned | wroteReg | jumped | dumpedAndJumped | linkedAndJumped | halted | emitted | waited
  | inputAborted | tokenWarned | byteRead => simp at ha

/-- Settles O53: by the effects a body can have, only two write memory. -/
theorem onlyStoresChangeMemory : Obligations.OnlyStoresChangeMemory :=
  fun _ _ _ _ h ha => (exec_effect h).changed_mem ha

end Sys2Proof.Machine
end

section
/-! PROOFS. The encoding (30_encoding.md): the two round trips (O1, O2), the opcode map (O3) and the operand value S(X)
(O42). -/

namespace Sys2Proof

/-! ### Indices of registers and of verbosities -/

@[simp] theorem regOf_index (r : Reg) : regOf (BitVec.ofNat 2 r.index) = r := by cases r <;> rfl

@[simp] theorem verbosityOf_index (v : Verbosity) : verbosityOf (BitVec.ofNat 2 v.index) = v := by cases v <;> rfl

@[simp] theorem index_regOf : ∀ b : BitVec 2, (regOf b).index = b.toNat := by decide

@[simp] theorem index_verbosityOf : ∀ b : BitVec 2, (verbosityOf b).index = b.toNat := by decide

/-! ### Decoding a packed Word -/

theorem decode_of_resvField_zero {w : Word} (h : resvField w = 0) :
    decode w = decodeOp (opField w) (rField w) (xField w) (sField w) := if_neg (not_not.mpr h)

theorem decode_of_resvField_ne {w : Word} (h : resvField w ≠ 0) :
    decode w = .nop (opField w) (regOf (rField w)) (regOf (xField w)) (resvField w) (sField w) := if_pos h

theorem decode_pack {op r x : Nat} {k : Addr} (hr : r < 4) (hx : x < 4) :
    decode (pack op r x 0 k) = decodeOp (BitVec.ofNat 4 op) (BitVec.ofNat 2 r) (BitVec.ofNat 2 x) k := by
  have hv : 0 < 16 := by omega
  rw [decode_of_resvField_zero resvField_pack, opField_pack hr hx hv, rField_pack hx hv, xField_pack hv, sField_pack]

theorem decode_pack_reserved (op : BitVec 4) (r x : Reg) {v : BitVec 4} (k : Addr) (hv : v ≠ 0) :
    decode (pack op.toNat r.index x.index v.toNat k) = .nop op r x v k := by
  have hresv : resvField (pack op.toNat r.index x.index v.toNat k) = v := by
    rw [resvField_pack, BitVec.ofNat_toNat, BitVec.setWidth_eq]
  rw [decode_of_resvField_ne (by rwa [hresv]), hresv, opField_pack r.index_lt x.index_lt v.isLt,
    rField_pack x.index_lt v.isLt, xField_pack v.isLt, sField_pack, regOf_index, regOf_index, BitVec.ofNat_toNat,
    BitVec.setWidth_eq]

/-- Settles O1: the fields of a packed Word are the numbers packed, so decoding reads them back. -/
theorem decodeEncodeWellFormed : Obligations.DecodeEncodeWellFormed := by
  intro i hi
  cases i with
  | nop op r x resv k => exact decode_pack_reserved op r x k (by simpa [Instr.wellFormed] using hi)
  | ld r x k | ldi r x k | st r x k | add r x k | sub r x k | mul r x k | div r x k | bor r x k | band r x k
  | shl r x k | shr r x k | brz r x k | brn r x k | brs r x k =>
    rw [encode, decode_pack r.index_lt x.index_lt]; simp [decodeOp]
  | inDec x k | inChr x k | outDec x k | outChr x k =>
    rw [encode, decode_pack (by omega) x.index_lt]; simp [decodeOp, decodeIO]
  | halt v k => rw [encode, decode_pack (by omega) v.index_lt]; simp [decodeOp, decodeBR]
  | djmp x k | jrel x k | jmp x k =>
    rw [encode, decode_pack (by omega) x.index_lt]; simp [decodeOp, decodeBR]

/-! ### Encoding a decoded Word -/

/-- A Word is its fields, packed. -/
theorem pack_fields (w : Word) :
    pack (opField w).toNat (rField w).toNat (xField w).toNat (resvField w).toNat (sField w) = w := by
  have := w.isLt
  apply BitVec.eq_of_toNat_eq
  simp only [pack, opField, rField, xField, resvField, sField, BitVec.extractLsb'_toNat, BitVec.toNat_ofNat,
    Nat.shiftRight_eq_div_pow]
  omega

theorem encode_decodeIO (r x : BitVec 2) (k : Addr) : encode (decodeIO r x k) = pack 11 r.toNat x.toNat 0 k := by
  have hr := r.isLt
  rw [decodeIO]
  interval_cases r.toNat <;> simp [encode]

theorem encode_decodeBR (r x : BitVec 2) (k : Addr) : encode (decodeBR r x k) = pack 12 r.toNat x.toNat 0 k := by
  have hr := r.isLt
  rw [decodeBR]
  interval_cases r.toNat <;> simp [encode]

theorem encode_decodeOp (op : BitVec 4) (r x : BitVec 2) (k : Addr) :
    encode (decodeOp op r x k) = pack op.toNat r.toNat x.toNat 0 k := by
  have hop := op.isLt
  rw [decodeOp]
  interval_cases op.toNat
  -- Opcodes 11 (IO) and 12 (BR) are the goals 12 and 13, counted from opcode 0.
  on_goal 13 => exact encode_decodeBR r x k
  on_goal 12 => exact encode_decodeIO r x k
  all_goals simp [encode]

theorem wellFormed_decodeIO (r x : BitVec 2) (k : Addr) : (decodeIO r x k).wellFormed = true := by
  unfold decodeIO
  split <;> rfl

theorem wellFormed_decodeBR (r x : BitVec 2) (k : Addr) : (decodeBR r x k).wellFormed = true := by
  unfold decodeBR
  split <;> rfl

theorem wellFormed_decodeOp (op : BitVec 4) (r x : BitVec 2) (k : Addr) : (decodeOp op r x k).wellFormed = true := by
  have hop := op.isLt
  rw [decodeOp]
  interval_cases op.toNat
  -- Opcodes 11 (IO) and 12 (BR) are the goals 12 and 13, counted from opcode 0.
  on_goal 13 => exact wellFormed_decodeBR r x k
  on_goal 12 => exact wellFormed_decodeIO r x k
  all_goals rfl

/-- Settles O2: with a reserved bit set the NOP keeps every field; without one the opcode map loses none. -/
theorem encodeDecodeEveryWord : Obligations.EncodeDecodeEveryWord := by
  intro w
  by_cases h : resvField w = 0
  · rw [decode_of_resvField_zero h]
    refine ⟨wellFormed_decodeOp .., ?_⟩
    calc encode (decodeOp (opField w) (rField w) (xField w) (sField w))
      _ = pack (opField w).toNat (rField w).toNat (xField w).toNat 0 (sField w) := encode_decodeOp ..
      _ = pack (opField w).toNat (rField w).toNat (xField w).toNat (resvField w).toNat (sField w) := by rw [h]; rfl
      _ = w := pack_fields w
  · rw [decode_of_resvField_ne h]
    refine ⟨decide_eq_true h, ?_⟩
    rw [encode, index_regOf, index_regOf, pack_fields]

/-! ### The opcode map -/

/-- A mask with ones at every bit of a field keeps the field. -/
theorem extractLsb'_and_mask (w : Word) {mask : Word} {start len : Nat}
    (h : mask.extractLsb' start len = BitVec.allOnes len) :
    (w &&& mask).extractLsb' start len = w.extractLsb' start len := by
  rw [BitVec.extractLsb'_and, h, BitVec.and_allOnes]

/-- A row that fixes opcode and reserved bits. -/
theorem decode_of_and_opMask {w m : Word} (h : w &&& 0xF0F00#20 = m) (hm : resvField m = 0) :
    decode w = decodeOp (opField m) (rField w) (xField w) (sField w) := by
  have hop : opField m = opField w := h ▸ extractLsb'_and_mask w rfl
  have hresv : resvField m = resvField w := h ▸ extractLsb'_and_mask w rfl
  rw [decode_of_resvField_zero (hresv ▸ hm), hop]

/-- A row of IO or BR, which fixes the r field too. -/
theorem decode_of_and_subOpMask {w m : Word} (h : w &&& 0xFCF00#20 = m) (hm : resvField m = 0) :
    decode w = decodeOp (opField m) (rField m) (xField w) (sField w) := by
  have hop : opField m = opField w := h ▸ extractLsb'_and_mask w rfl
  have hr : rField m = rField w := h ▸ extractLsb'_and_mask w rfl
  have hresv : resvField m = resvField w := h ▸ extractLsb'_and_mask w rfl
  rw [decode_of_resvField_zero (hresv ▸ hm), hop, hr]

theorem resvField_ne_zero {w : Word} (h : w &&& 0x00F00#20 ≠ 0) : resvField w ≠ 0 := by
  intro hw
  rw [and_reservedMask, hw] at h
  exact h rfl

/-- Settles O3: the fixed bits of a row determine the fields the decoder tests. -/
theorem decodingFollowsTheOpcodeMap : Obligations.DecodingFollowsTheOpcodeMap := by
  intro w
  have hrow {m : Word} (h : w &&& 0xF0F00#20 = m) := decode_of_and_opMask h
  have hsub {m : Word} (h : w &&& 0xFCF00#20 = m) := decode_of_and_subOpMask h
  exact ⟨(hrow · rfl), (hrow · rfl), (hrow · rfl), (hrow · rfl), (hrow · rfl), (hrow · rfl), (hrow · rfl),
    (hrow · rfl), (hrow · rfl), (hrow · rfl), (hrow · rfl), (hsub · rfl), (hsub · rfl), (hsub · rfl), (hsub · rfl),
    (hsub · rfl), (hsub · rfl), (hsub · rfl), (hsub · rfl), (hrow · rfl), (hrow · rfl), (hrow · rfl),
    fun h => decode_of_resvField_ne (resvField_ne_zero h)⟩

end Sys2Proof

namespace Sys2Proof.Machine

/-! ### The operand value -/

theorem State.sx_r0 (s : State) (k : Addr) : s.sx .r0 k = BitVec.ofNat 20 k.toNat := zext20_eq_ofNat k

theorem State.sx_of_ne_r0 (s : State) {x : Reg} (k : Addr) (h : x ≠ .r0) :
    s.sx x k = BitVec.ofNat 20 (k.toNat + (s.regs.get x).toNat) := by
  have hadd : s.sx x k = aluAdd (zext20 k) (s.regs.get x) := by
    cases x with
    | r0 => exact absurd rfl h
    | r1 | r2 | r3 => rfl
  rw [hadd, aluAdd_eq_add, zext20_eq_ofNat, BitVec.ofNat_add, BitVec.ofNat_toNat 20 (s.regs.get x),
    BitVec.setWidth_eq]

/-- The literal is below 2^8, so its zero extension is not negative. -/
theorem State.sxInt_r0 (s : State) (k : Addr) : s.sxInt .r0 k = k.toNat := by
  have hk := k.isLt
  have hnat : (s.sx .r0 k).toNat = k.toNat := BitVec.toNat_setWidth_of_le (by omega)
  rw [State.sxInt, signed, BitVec.toInt_eq_toNat_of_lt (by omega), hnat]

/-- Settles O42: with x = 0 the literal alone, otherwise the wrapping sum with the register. -/
theorem operandValue : Obligations.OperandValue :=
  fun s _ k => ⟨s.sx_r0 k, s.sxInt_r0 k, fun h => ⟨s.sx_of_ne_r0 k h, rfl⟩⟩

end Sys2Proof.Machine
end

section
/-! PROOFS. The arithmetic unit (40_alu.md): addition, negation and subtraction (O29), the multiplication loop (O30),
division (O31, O32), shifts (O33), logic and tests (O34), the laws of the Word operations (O35), and the conversions
(O36). -/

namespace Sys2Proof.Machine

/-! ### wrap20 and signed -/

theorem wrap20_signed (w : Word) : wrap20 (signed w) = w := BitVec.ofInt_toInt

theorem wrap20_toNat (w : Word) : wrap20 w.toNat = w := by
  rw [wrap20, BitVec.ofInt_natCast, BitVec.ofNat_toNat, BitVec.setWidth_eq]

theorem wrap20_add (m n : Int) : wrap20 (m + n) = wrap20 m + wrap20 n := BitVec.ofInt_add m n

theorem wrap20_neg (n : Int) : wrap20 (-n) = -wrap20 n := BitVec.ofInt_neg

theorem wrap20_sub (m n : Int) : wrap20 (m - n) = wrap20 m - wrap20 n := by
  rw [Int.sub_eq_add_neg, wrap20_add, wrap20_neg, BitVec.sub_eq_add_neg]

theorem wrap20_mul (m n : Int) : wrap20 (m * n) = wrap20 m * wrap20 n := BitVec.ofInt_mul m n

theorem isRepresentable_iff (n : Int) : isRepresentable n = true ↔ -524288 ≤ n ∧ n ≤ 524287 := by
  simp [isRepresentable]

theorem signed_wrap20 {n : Int} (h : isRepresentable n = true) : signed (wrap20 n) = n := by
  obtain ⟨hlo, hhi⟩ := (isRepresentable_iff n).mp h
  exact BitVec.toInt_ofInt_eq_self (by omega) (by omega) (by omega)

theorem signed_natAbs_le (w : Word) : (signed w).natAbs ≤ 2 ^ 19 := by
  obtain ⟨hlo, hhi⟩ := (isRepresentable_iff (signed w)).mp (isRepresentable_signed w)
  omega

/-- Below 2^20 in magnitude, only 0 wraps to 0. -/
theorem wrap20_eq_zero_iff {n : Int} (h : n.natAbs < 2 ^ 20) : wrap20 n = 0 ↔ n = 0 := by
  refine ⟨fun hn => ?_, fun hn => by rw [hn]; rfl⟩
  have hmod : n.bmod (2 ^ 20) = 0 := by rw [← BitVec.toInt_ofInt, ← wrap20, hn]; rfl
  have hdvd : ((2 ^ 20 : Nat) : Int) ∣ n := Int.dvd_of_bmod_eq_zero hmod
  omega

/-! ### Addition, negation, subtraction and multiplication are the ring operations of `BitVec` -/

theorem aluNegate_eq_neg (a : Word) : aluNegate a = -a := by
  rw [aluNegate, aluAdd_eq_add, BitVec.neg_eq_not_add]
  exact congrArg (· + 1#20) BitVec.xor_allOnes

theorem aluSubtract_eq_sub (a b : Word) : aluSubtract a b = a - b := by
  rw [aluSubtract, aluAdd_eq_add, aluNegate_eq_neg, BitVec.sub_eq_add_neg]

theorem aluMultiply_eq_mul (a b : Word) : aluMultiply a b = a * b := by
  rw [aluMultiply, wrap20_mul, wrap20_toNat, wrap20_toNat]

theorem aluAdd_eq_wrap20_signed (a b : Word) : aluAdd a b = wrap20 (signed a + signed b) := by
  rw [wrap20_add, wrap20_signed, wrap20_signed, aluAdd_eq_add]

theorem aluSubtract_eq_wrap20_signed (a b : Word) : aluSubtract a b = wrap20 (signed a - signed b) := by
  rw [wrap20_sub, wrap20_signed, wrap20_signed, aluSubtract_eq_sub]

theorem aluMultiply_eq_wrap20_signed (a b : Word) : aluMultiply a b = wrap20 (signed a * signed b) := by
  rw [wrap20_mul, wrap20_signed, wrap20_signed, aluMultiply_eq_mul]

/-- Settles O29: each operation is the ring operation of `BitVec`, and `wrap20` respects sums and differences. -/
theorem addNegateSubtractWrap : Obligations.AddNegateSubtractWrap := by
  refine ⟨fun a b => ⟨aluAdd_eq_add a b, ?_, aluAdd_eq_wrap20_signed a b⟩, fun a => ⟨?_, ?_⟩, fun a b => ⟨rfl, ?_⟩⟩
  · rw [aluAdd_eq_add, BitVec.toNat_add]
  · rw [aluNegate, aluAdd_eq_add]
  · rw [aluNegate_eq_neg, BitVec.toNat_neg]
  · rw [wrap20_sub, wrap20_toNat, wrap20_toNat, aluSubtract_eq_sub]

/-- After the low `n` bits of `b`, the accumulator holds the product with the number those bits spell. -/
theorem shiftAndAdd_eq (a b : Word) (n : Nat) :
    shiftAndAdd a b n = wrap20 ((a.toNat * (b.toNat % 2 ^ n) : Nat) : Int) := by
  induction n with
  | zero => rw [pow_zero, Nat.mod_one, Nat.mul_zero]; rfl
  | succ n ih =>
    have hbits : b.toNat % 2 ^ (n + 1) = b.toNat % 2 ^ n + 2 ^ n * (b.getLsbD n).toNat := by
      rw [BitVec.getLsbD, Nat.toNat_testBit, ← Nat.mod_pow_succ]
    rw [shiftAndAdd, hbits, ih]
    cases b.getLsbD n with
    | false => simp
    | true =>
      rw [if_pos rfl, aluAdd_eq_add, ← wrap20_add, Bool.toNat_true, Nat.mul_one, Nat.mul_add]
      push_cast
      rfl

/-- Settles O30: the loop over all 20 bits has read the whole of b. -/
theorem multiplyIsShiftAndAdd : Obligations.MultiplyIsShiftAndAdd := by
  intro a b
  refine ⟨?_, rfl, aluMultiply_eq_wrap20_signed a b⟩
  rw [shiftAndAdd_eq, Nat.mod_eq_of_lt b.isLt, aluMultiply, Int.natCast_mul]

/-! ### Division -/

theorem magnitude_eq_natAbs (a : Word) : magnitude a = (signed a).natAbs := by
  rw [magnitude, aluNegate_eq_neg]
  split
  · rw [signed, BitVec.toInt_eq_neg_toNat_neg_of_msb_true ‹_›, Int.natAbs_neg, Int.natAbs_natCast]
  · rw [signed, BitVec.toInt_eq_toNat_of_msb (Bool.eq_false_iff.mpr ‹_›), Int.natAbs_natCast]

/-- Truncated division divides the magnitudes and applies the exclusive-or of the signs. -/
theorem tdiv_eq_signed_natAbs_div (m n : Int) :
    m.tdiv n = if decide (m < 0) ^^ decide (n < 0) then -((m.natAbs / n.natAbs : Nat) : Int)
      else ((m.natAbs / n.natAbs : Nat) : Int) := by
  have hneg (k : Nat) : decide (Int.negSucc k < 0) = true := decide_eq_true (Int.negSucc_lt_zero k)
  have hnat (k : Nat) : decide (Int.ofNat k < 0) = false := decide_eq_false (Int.natCast_nonneg k).not_gt
  cases m with
  | ofNat m =>
    cases n with
    | ofNat n => rw [hnat, hnat]; rfl
    | negSucc n => rw [hnat, hneg]; rfl
  | negSucc m =>
    cases n with
    | ofNat n => rw [hneg, hnat]; rfl
    | negSucc n => rw [hneg, hneg]; rfl

theorem aluDivideBy_zero (a : Word) : aluDivideBy a 0 = .error .divisionByZero := rfl

theorem aluDivideBy_of_ne_zero (a : Word) {b : Word} (hb : b ≠ 0) :
    aluDivideBy a b = .ok (wrap20 ((signed a).tdiv (signed b))) := by
  rw [aluDivideBy, if_neg hb, magnitude_eq_natAbs, magnitude_eq_natAbs, BitVec.msb_eq_toInt, BitVec.msb_eq_toInt,
    tdiv_eq_signed_natAbs_div, apply_ite wrap20, wrap20_neg, ← aluNegate_eq_neg]

/-- Settles O31: the closed form of the division of magnitudes, and its one failing divisor. -/
theorem divideTruncatesTowardZero : Obligations.DivideTruncatesTowardZero :=
  fun a _ => ⟨fun hb => hb ▸ aluDivideBy_zero a, aluDivideBy_of_ne_zero a⟩

/-- From position `j` down, the loop divides any remainder below the divisor shifted left by `j`. -/
theorem restoringLoop_eq_div {d j rem : Nat} (h : rem < d * 2 ^ j) : restoringLoop d j rem = rem / d := by
  induction j generalizing rem with
  | zero => rw [restoringLoop, Nat.div_eq_of_lt (by omega)]
  | succ j ih =>
    rw [restoringLoop]
    split
    next hle =>
      have hd : 0 < d := Nat.pos_of_mul_pos_right (Nat.zero_lt_of_lt h)
      have hrem : rem - d * 2 ^ j < d * 2 ^ j := by rw [pow_succ, ← Nat.mul_assoc] at h; omega
      have hbit : 2 ^ j ≤ rem / d := (Nat.le_div_iff_mul_le hd).mpr (by rwa [Nat.mul_comm])
      rw [ih hrem, Nat.sub_mul_div, Nat.add_sub_cancel' hbit]
    next hlt => exact ih (Nat.not_le.mp hlt)

/-- Settles O32: aligned to bit 19, the divisor shifted once more exceeds every 20-bit number. -/
theorem restoringDivisionIsFloor : Obligations.RestoringDivisionIsFloor := by
  intro n d hn hd hd20
  have hlog : Nat.log2 d < 20 := (Nat.log2_lt hd.ne').mpr hd20
  apply restoringLoop_eq_div
  calc n < 2 ^ 20 := hn
    _ = 2 ^ Nat.log2 d * 2 ^ (19 - Nat.log2 d + 1) := by rw [← pow_add]; congr 1; omega
    _ ≤ d * 2 ^ (19 - Nat.log2 d + 1) := Nat.mul_le_mul_right _ (Nat.log2_self_le hd.ne')

/-! ### Shifts -/

/-- The amounts 0..19 pass the check that both shifts make (40_alu.md R127). -/
theorem shiftAmount_legal {n : Nat} (h : n ≤ 19) : ¬((n : Int) < 0 ∨ (n : Int) > (Config.shiftMax : Int)) := by
  simp only [Config.shiftMax]
  omega

theorem aluShiftLeft_of_le (a : Word) {n : Nat} (h : n ≤ 19) : aluShiftLeft a n = .ok (wrap20 (a.toNat * 2 ^ n)) :=
  if_neg (shiftAmount_legal h)

/-- The arithmetic right shift is the floor of the signed value divided by the power of two. -/
theorem aluShiftRight_of_le (a : Word) {n : Nat} (h : n ≤ 19) :
    aluShiftRight a n = .ok (wrap20 (signed a / 2 ^ n)) := by
  have hfloor : signed (a.sshiftRight n) = signed a / 2 ^ n := by
    rw [signed, BitVec.toInt_sshiftRight, Int.shiftRight_eq_div_pow, Nat.cast_pow, Nat.cast_ofNat]
  rw [aluShiftRight, if_neg (shiftAmount_legal h), Int.toNat_natCast, ← hfloor, wrap20_signed]

theorem aluShift_invalid (a : Word) {n : Int} (h : n < 0 ∨ 19 < n) :
    aluShiftLeft a n = .error (.invalidShiftAmount n) ∧ aluShiftRight a n = .error (.invalidShiftAmount n) :=
  ⟨if_pos h, if_pos h⟩

/-- Settles O33: the closed forms of the two shifts, and the check they share. -/
theorem shiftsAgainstIntegers : Obligations.ShiftsAgainstIntegers :=
  ⟨fun a _ => aluShiftLeft_of_le a, fun a _ => aluShiftRight_of_le a, fun a _ => aluShift_invalid a⟩

/-! ### Logic and tests -/

theorem isZero_iff (a : Word) : isZero a = true ↔ a.toNat = 0 := by
  rw [isZero, beq_iff_eq, ← BitVec.toNat_inj]; rfl

theorem isPositive_iff (a : Word) : isPositive a = true ↔ a.getLsbD 19 = false := by
  rw [isPositive, BitVec.msb_eq_getLsbD_last, Bool.not_eq_true']

/-- Settles O34: bit 19 is the sign bit, and the other tests are the library's rules for the bits. -/
theorem logicAndTestsByBits : Obligations.LogicAndTestsByBits :=
  ⟨fun _ _ _ _ => ⟨BitVec.getLsbD_and, BitVec.getLsbD_or⟩, fun a => ⟨isZero_iff a, isPositive_iff a⟩⟩

/-! ### The laws of the Word operations -/

theorem aluNegate_eq_self_iff (a : Word) : aluNegate a = a ↔ a = 0x00000#20 ∨ a = 0x80000#20 := by
  have ha := a.isLt
  rw [aluNegate_eq_neg, ← BitVec.toNat_inj, ← BitVec.toNat_inj, ← BitVec.toNat_inj, BitVec.toNat_neg]
  simp only [BitVec.toNat_ofNat]
  omega

/-- The wrapped quotient has a magnitude of at most 2^19, so it is 0 exactly when the quotient is. -/
theorem aluDivideBy_eq_zero_iff (a : Word) {b : Word} (hb : b ≠ 0) :
    aluDivideBy a b = .ok 0 ↔ (signed a).natAbs < (signed b).natAbs := by
  have hquot : ((signed a).tdiv (signed b)).natAbs < 2 ^ 20 :=
    calc ((signed a).tdiv (signed b)).natAbs
      _ ≤ (signed a).natAbs := Int.natAbs_tdiv_le_natAbs _ _
      _ ≤ 2 ^ 19 := signed_natAbs_le a
      _ < 2 ^ 20 := by omega
  have hdiv : signed b ≠ 0 := fun h => hb (by rw [← wrap20_signed b, h]; rfl)
  calc aluDivideBy a b = .ok 0
    _ ↔ wrap20 ((signed a).tdiv (signed b)) = 0 := by rw [aluDivideBy_of_ne_zero a hb, Except.ok.injEq]
    _ ↔ (signed a).natAbs / (signed b).natAbs = 0 := by
      rw [wrap20_eq_zero_iff hquot, ← Int.natAbs_eq_zero, Int.natAbs_tdiv]; rfl
    _ ↔ (signed a).natAbs < (signed b).natAbs := by simp [Nat.div_eq_zero_iff, hdiv]

theorem aluShiftLeft_eq_multiply (a : Word) {n : Nat} (h : n ≤ 19) :
    aluShiftLeft a n = .ok (aluMultiply a (wrap20 (2 ^ n))) := by
  rw [aluShiftLeft_of_le a h, wrap20_mul, wrap20_toNat, aluMultiply_eq_mul]

/-- For a negative non-multiple of the power of two, truncation lies one above the floor. -/
theorem aluShiftRight_ne_divideBy (a : Word) {n : Nat} (hn : n ≤ 18) (ha : signed a < 0)
    (hdvd : ¬(2 : Int) ^ n ∣ signed a) : aluShiftRight a n ≠ aluDivideBy a (wrap20 (2 ^ n)) := by
  have hpos : (0 : Int) < 2 ^ n := by positivity
  have hle : (2 : Int) ^ n ≤ 2 ^ 18 := pow_le_pow_right₀ (by omega) hn
  have hsigned : signed (wrap20 (2 ^ n)) = 2 ^ n := signed_wrap20 ((isRepresentable_iff _).mpr (by omega))
  have hne : wrap20 (2 ^ n) ≠ 0 := fun h => by rw [h] at hsigned; exact hpos.ne hsigned
  have htrunc : (signed a).tdiv (2 ^ n) = signed a / 2 ^ n + 1 := by
    rw [Int.tdiv_eq_ediv, if_neg (by simp [hdvd, ha]), Int.sign_eq_one_of_pos hpos]
  rw [aluShiftRight_of_le a (by omega), aluDivideBy_of_ne_zero a hne, hsigned, htrunc, wrap20_add]
  intro h
  exact absurd (left_eq_add.mp (Except.ok.inj h)) (by decide)

/-- Settles O35: the laws of the ring operations, and the closed forms of division and of the shifts. -/
theorem wordOperationLaws : Obligations.WordOperationLaws := by
  refine ⟨fun a b => ?_, fun a => ⟨?_, aluNegate_eq_self_iff a⟩, fun a b c => ?_, fun a b => ?_,
    fun a _ => aluDivideBy_eq_zero_iff a, fun a _ => aluShiftLeft_eq_multiply a, fun a _ => aluShiftRight_of_le a,
    fun a _ _ => aluShiftRight_ne_divideBy a⟩
  · rw [aluSubtract_eq_sub, aluAdd_eq_add, BitVec.add_sub_cancel]
  · rw [aluNegate_eq_neg, aluNegate_eq_neg, BitVec.neg_neg]
  · simp only [aluAdd_eq_add, aluMultiply_eq_mul]
    exact ⟨BitVec.add_comm a b, BitVec.add_assoc a b c, BitVec.mul_comm a b, BitVec.mul_assoc a b c, BitVec.mul_one a⟩
  · exact ⟨aluAdd_eq_wrap20_signed a b, aluSubtract_eq_wrap20_signed a b, aluMultiply_eq_wrap20_signed a b,
      aluDivideBy_of_ne_zero a⟩

/-! ### Conversions -/

theorem fromDecimal_eq_some_iff (n : Int) (w : Word) :
    fromDecimal n = some w ↔ (-524288 ≤ n ∧ n ≤ 524287) ∧ signed w = n := by
  rw [← isRepresentable_iff]
  constructor
  · intro h
    obtain ⟨hn, hw⟩ := Option.ite_none_right_eq_some.mp h
    exact ⟨hn, by rw [← Option.some.inj hw, signed_wrap20 hn]⟩
  · rintro ⟨hn, rfl⟩
    rw [fromDecimal, if_pos hn, wrap20_signed]

theorem hexValue_hexDigit : ∀ d < 16, hexValue (hexDigit d) = some d := by decide

theorem hexDigits_length (n v : Nat) : (hexDigits n v).length = n := by
  induction n generalizing v with
  | zero => rfl
  | succ n ih => rw [hexDigits, List.length_append, ih, List.length_singleton]

theorem hexNumber_hexDigit_cons (acc : Nat) {d : Nat} (hd : d < 16) (cs : List Char) :
    hexNumber acc (hexDigit d :: cs) = hexNumber (acc * 16 + d) cs := by
  rw [hexNumber, hexValue_hexDigit d hd]

/-- Reading `n` digits of `v` shifts the number read before by `n` digits and adds `v`. -/
theorem hexNumber_hexDigits_append (acc : Nat) {n v : Nat} (hv : v < 16 ^ n) (cs : List Char) :
    hexNumber acc (hexDigits n v ++ cs) = hexNumber (acc * 16 ^ n + v) cs := by
  induction n generalizing v cs with
  | zero =>
    have hv0 : v = 0 := by omega
    rw [hv0, hexDigits, List.nil_append, pow_zero, Nat.mul_one, Nat.add_zero]
  | succ n ih =>
    have hquot : v / 16 < 16 ^ n := Nat.div_lt_of_lt_mul (by rwa [pow_succ'] at hv)
    have hnum : (acc * 16 ^ n + v / 16) * 16 + v % 16 = acc * 16 ^ (n + 1) + v := by
      rw [Nat.add_mul, Nat.add_assoc, Nat.div_add_mod', Nat.mul_assoc, ← pow_succ]
    rw [hexDigits, List.append_assoc, List.singleton_append, ih hquot, hexNumber_hexDigit_cons _ (by omega), hnum]

theorem hexNumber_hexDigits {n v : Nat} (hv : v < 16 ^ n) : hexNumber 0 (hexDigits n v) = some v := by
  have h := hexNumber_hexDigits_append 0 hv []
  rwa [List.append_nil, Nat.zero_mul, Nat.zero_add] at h

theorem fromHex_toHex (w : Word) : fromHex (toHex w) = some w := by
  rw [fromHex, toHex, if_pos (hexDigits_length 5 _), hexNumber_hexDigits w.isLt, Option.map_some, BitVec.ofNat_toNat,
    BitVec.setWidth_eq]

theorem addrFromHex_addrToHex (a : Addr) : addrFromHex (addrToHex a) = some a := by
  rw [addrFromHex, addrToHex, if_pos (hexDigits_length 2 _), hexNumber_hexDigits a.isLt, Option.map_some,
    BitVec.ofNat_toNat, BitVec.setWidth_eq]

/-- Settles O36: the decimal reading is determined by the signed value, the hexadecimal one digit by digit. -/
theorem conversionsRoundTrip : Obligations.ConversionsRoundTrip :=
  ⟨fun w => (fromDecimal_eq_some_iff _ w).mpr ⟨(isRepresentable_iff _).mp (isRepresentable_signed w), rfl⟩,
    isRepresentable_iff, fromDecimal_eq_some_iff, fun w => ⟨fromHex_toHex w, hexDigits_length 5 _⟩,
    fun a => ⟨addrFromHex_addrToHex a, hexDigits_length 2 _⟩⟩

end Sys2Proof.Machine
end

section
/-! PROOFS. The cycle (41_cycle.md): what a step of a running block does with the end of the body (O44, O45), the limit
(O46), the end of a run that is never held (O51), and the held cycle that is answered later (O52). -/

namespace Sys2Proof.Machine

/-! ### The record and the end of a cycle -/

theorem State.memRead_toOption (s : State) (a : Int) :
    (s.memRead a).toOption = if 0 ≤ a ∧ a < 256 then some (s.mem.read a.toNat) else none := by
  by_cases h : legalAddress a
  · rw [State.memRead_ok.mpr ⟨h, rfl⟩]; exact (if_pos h).symm
  · rw [State.memRead_error.mpr ⟨h, rfl⟩]; exact (if_neg h).symm

/-- The record with the Words of the memory operand read off the two memories (60_exceptions.md R340). -/
theorem traceRecord_eq {f : Fetched} {p t : State} {i : Instr} {o : Option Int} (hi : decode f.word = i)
    (ho : p.operandAddress i = o) (hcount : t.count = p.count) :
    traceRecord f p t = {
      cycle := p.count, fetched := f, instr := i, regsBefore := p.regs, pcBefore := p.pc, regsAfter := t.regs,
      pcAfter := t.pc, operand := o.map fun a =>
        ⟨a, if 0 ≤ a ∧ a < 256 then some (p.mem.read a.toNat) else none,
          if 0 ≤ a ∧ a < 256 then some (t.mem.read a.toNat) else none⟩,
      warning := t.warning } := by
  simp only [traceRecord, hi, ho, hcount, State.memRead_toOption]

theorem exec_count {i : Instr} {s t : State} (h : exec i s = .next t) : t.count = s.count :=
  (onlyIoTouchesThePorts i s t h).1

/-- The four ways in which a cycle ends after a body that ended in `t`, the record being `r` (41_cycle.md R176 to
R179). -/
theorem runBody_ends {f : Fetched} {p t : State} {r : TraceRecord} (h : exec (decode f.word) p = .next t)
    (hr : traceRecord f p t = r) :
    (t.run = .running → t.wait = none → runBody f p = .next { t with
      fetched := none, trace := t.trace ++ [.record r] }) ∧
    (t.run = .running → t.wait ≠ none → runBody f p = .next { t with fetched := some f }) ∧
    (t.run = .halted → runBody f p = .next { t with
      fetched := none,
      trace := t.trace ++ [.record r] ++ [.dump ⟨some ⟨t.regs, t.pc⟩, some t.mem⟩] }) ∧
    (∀ q, t.run = .aborted q → runBody f p = .next { t with
      fetched := none, trace := t.trace ++ [.dump ⟨some ⟨t.regs, t.pc⟩, some t.mem⟩] }) := by
  subst hr
  rw [runBody_of_exec h]
  obtain ⟨hrun, hwait, hend⟩ | ⟨hrun, hwait, hend⟩ | ⟨hrun, hend⟩ | ⟨q, hrun, hend⟩ := finishCycle_cases f p t <;>
    rw [hend]
  · exact ⟨fun _ hw => absurd hw hwait, fun _ _ => rfl, by simp [hrun], by simp [hrun]⟩
  · exact ⟨fun _ _ => rfl, fun _ hw => absurd hwait hw, by simp [hrun], by simp [hrun]⟩
  · exact ⟨by simp [hrun], by simp [hrun], fun _ => rfl, by simp [hrun]⟩
  · exact ⟨by simp [hrun], by simp [hrun], by simp [hrun], fun _ _ => rfl⟩

/-- A step of a running block that holds no cycle, short of the limit. -/
theorem step_of_fetch {s : State} (hrun : s.run = .running) (hf : s.fetched = none) (hcount : s.count < 200) :
    step s = runBody ⟨s.pc, s.mem.read s.pc.toNat⟩ s.startCycle.incrementPC := by
  rw [step_of_running hrun, runStep_of_not_held hf, cycle_of_lt hcount]; rfl

theorem step_of_held {s : State} {f : Fetched} (hrun : s.run = .running) (hf : s.fetched = some f) :
    step s = runBody f s := by
  rw [step_of_running hrun, runStep_of_held hf]

theorem step_of_limit {s : State} (hrun : s.run = .running) (hf : s.fetched = none) (hcount : 200 ≤ s.count) :
    step s = .next (s.startCycle.abort .instructionLimitExceeded).endRun := by
  rw [step_of_running hrun, runStep_of_not_held hf, cycle_of_limit hcount]

/-- Settles O44: the step is the body of the fetched Word, from the state after the count and the increment. -/
theorem stepRunsTheDecodedInstruction : Obligations.StepRunsTheDecodedInstruction := by
  intro s t i hrun hf hcount hi f p operandAddr wordAt h r
  have hop : p.operandAddress i = operandAddr := by cases i <;> rfl
  have hr : traceRecord f p t = r := traceRecord_eq hi hop (exec_count h)
  rw [step_of_fetch hrun hf hcount]
  exact runBody_ends (p := p) (hi ▸ h) hr

/-- Settles O45: the step is the body of the held Word, from the state itself. -/
theorem heldCycleResumesWithoutANewCount : Obligations.HeldCycleResumesWithoutANewCount := by
  intro s t f i hrun hf hi operandAddr wordAt h r
  have hop : s.operandAddress i = operandAddr := by cases i <;> rfl
  have hr : traceRecord f s t = r := traceRecord_eq hi hop (exec_count h)
  rw [step_of_held hrun hf]
  exact ⟨exec_count h, runBody_ends (hi ▸ h) hr⟩

/-- Settles O46: the limit is checked after the count and before the fetch. -/
theorem limitAbortsBeforeTheFetch : Obligations.LimitAbortsBeforeTheFetch :=
  fun _ hrun hf hcount => step_of_limit hrun hf hcount

/-! ### The end of a run that is never held -/

theorem runSteps_succ {s t : State} (n : Nat) (h : step s = .next t) : runSteps (n + 1) s = runSteps n t := by
  rw [runSteps, h]

/-- No end of a cycle moves the counter. -/
theorem runBody_count {f : Fetched} {s t : State} (h : runBody f s = .next t) : t.count = s.count := by
  obtain ⟨u, hu, rfl⟩ := runBody_next h
  rw [← exec_count hu]
  obtain ⟨-, -, he⟩ | ⟨-, -, he⟩ | ⟨-, he⟩ | ⟨_, -, he⟩ := finishCycle_cases f s u <;> rw [he] <;> rfl

/-- A step that starts a cycle counts it, below the limit, or ends the run (41_cycle.md R171). -/
theorem step_ends_or_counts {s t : State} (hrun : s.run = .running) (hf : s.fetched = none) (h : step s = .next t) :
    t.run ≠ .running ∨ s.count < 200 ∧ t.count = s.count + 1 := by
  obtain hlimit | hlt := le_or_gt 200 s.count
  · rw [step_of_limit hrun hf hlimit] at h
    cases h
    exact .inl nofun
  · rw [step_of_fetch hrun hf hlt] at h
    exact .inr ⟨hlt, runBody_count h⟩

/-- The bound is what the counter has left below the limit, and one step more for the abort. -/
theorem runSteps_ends {n : Nat} {s : State} (hn : 200 - s.count < n)
    (hheld : ∀ (m : Nat) (t : State), m ≤ n → runSteps m s = .next t → t.fetched = none) :
    ∃ t, runSteps n s = .next t ∧ t.run ≠ .running := by
  induction n generalizing s with
  | zero => exact absurd hn (Nat.not_lt_zero _)
  | succ n ih =>
    by_cases hrun : s.run = .running
    · obtain ⟨t, ht⟩ := everyStepAnswersANextState s
      rw [runSteps_succ n ht]
      obtain hend | ⟨hlt, hcount⟩ := step_ends_or_counts hrun (hheld 0 s (Nat.zero_le _) rfl) ht
      · exact ⟨t, (terminalStatesStay t hend).2 n, hend⟩
      · refine ih (by omega) fun m u hm hu => hheld (m + 1) u (Nat.succ_le_succ hm) ?_
        rw [runSteps_succ m ht, hu]
    · exact ⟨s, (terminalStatesStay s hrun).2 (n + 1), hrun⟩

/-- Settles O51: a counter at 0 has the most left. -/
theorem runsNeverHeldEndWithin201Steps : Obligations.RunsNeverHeldEndWithin201Steps :=
  fun _ hheld => runSteps_ends (Nat.lt_succ_of_le (Nat.sub_le ..)) hheld

/-! ### Reading a token in two parts -/

/-- Separators in front of a token make no difference to reading it. -/
theorem readToken_separators {seps : List Byte} (l : List InAnswer) (h : seps.all isSeparator = true) :
    readToken [] (okBytes seps ++ l) = readToken [] l := by
  have hskip : skipSeparators (okBytes seps ++ l) = skipSeparators l := by
    induction seps with
    | nil => rfl
    | cons b seps ih =>
      rw [List.all_cons, Bool.and_eq_true] at h
      obtain ⟨hb, hseps⟩ := h
      rw [← ih hseps]
      exact if_pos hb
  simp only [readToken, hskip, ↓reduceIte]

/-- Token bytes on the channel are as good as taken already. -/
theorem collectToken_append {bs : List Byte} (tok : List Byte) (l : List InAnswer)
    (h : (bs.all fun b => !isSeparator b) = true) :
    collectToken tok (okBytes bs ++ l) = collectToken (tok ++ bs) l := by
  induction bs generalizing tok with
  | nil => rw [List.append_nil]; rfl
  | cons b bs ih =>
    rw [List.all_cons, Bool.and_eq_true, Bool.not_eq_true'] at h
    obtain ⟨hb, hbs⟩ := h
    rw [List.append_cons tok b bs, ← ih (tok ++ [b]) hbs]
    simp [collectToken, hb]

theorem readToken_of_ne_nil {tok : List Byte} (l : List InAnswer) (h : tok ≠ []) :
    readToken tok l = collectToken tok l := if_neg h

theorem readToken_of_token_byte {b : Byte} (a : ChanAnswer) (l : List InAnswer) (hb : isSeparator b = false) :
    readToken [] (.byte b a :: l) = collectToken [] (.byte b a :: l) := by
  cases a <;> simp [readToken, skipSeparators, hb]

/-- A token loop that waits has used up the input, which it added to what was taken. -/
theorem collectToken_wait {tok tok' : List Byte} {l rest : List InAnswer}
    (h : collectToken tok l = (.wait tok', rest)) :
    ∃ bs, (bs.all fun b => !isSeparator b) = true ∧ l = okBytes bs ∧ tok' = tok ++ bs ∧ rest = [] := by
  obtain ⟨bs, hbs, hl, hend⟩ := collectToken_spec tok l
  rw [h] at hl hend
  obtain ⟨hrest, hw⟩ | ⟨-, hw⟩ | ⟨_, -, hw⟩ | ⟨_, _, -, -, hw⟩ := hend <;> cases hw
  obtain rfl : rest = [] := hrest
  exact ⟨bs, hbs, by simpa using hl, rfl, rfl⟩

/-- The token loop over all the input is the one that goes on where a wait stopped it. -/
theorem collectToken_resume {tok tok' : List Byte} {l rest : List InAnswer} (more : List InAnswer)
    (h : collectToken tok l = (.wait tok', rest)) :
    collectToken tok (l ++ more) = collectToken tok' (rest ++ more) := by
  obtain ⟨bs, hbs, rfl, rfl, rfl⟩ := collectToken_wait h
  exact collectToken_append tok more hbs

/-- Reading all the input is going on where a wait stopped the reading (45_io.md R260). -/
theorem readToken_resume {tok tok' : List Byte} {l rest : List InAnswer} (more : List InAnswer)
    (h : readToken tok l = (.wait tok', rest)) : readToken tok (l ++ more) = readToken tok' (rest ++ more) := by
  by_cases htok : tok = []
  · subst htok
    obtain ⟨seps, hseps, hl, hend⟩ := skipSeparators_spec l
    rw [hl, readToken_separators _ hseps] at h
    rw [hl, List.append_assoc, readToken_separators _ hseps]
    generalize (skipSeparators l).2 = left, (skipSeparators l).1 = e at h hend
    obtain ⟨rfl, -⟩ | ⟨_, rfl, -⟩ | ⟨_, rfl, -⟩ | ⟨b, _, rfl, hb, -⟩ | ⟨b, a, t, rfl, hb, -⟩ := hend
    · cases h; rfl
    · cases h
    · cases h
    · simp [readToken, skipSeparators, hb] at h
    · rw [readToken_of_token_byte _ _ hb] at h
      obtain ⟨bs, -, hbs, htaken, -⟩ := collectToken_wait h
      have hne : tok' ≠ [] := by rintro rfl; cases htaken; cases hbs
      rw [List.cons_append, readToken_of_token_byte _ _ hb, readToken_of_ne_nil _ hne, ← List.cons_append]
      exact collectToken_resume more h
  · rw [readToken_of_ne_nil _ htok] at h ⊢
    obtain ⟨bs, -, -, rfl, -⟩ := collectToken_wait h
    rw [readToken_of_ne_nil _ (by simp [htok])]
    exact collectToken_resume more h

/-! ### The held cycle -/

section
variable {s s' : State}

/-- The operand value reads the registers alone (30_encoding.md R100). -/
theorem State.sxInt_congr (x : Reg) (k : Addr) (h : s.regs = s'.regs) : s.sxInt x k = s'.sxInt x k := by
  cases x <;> simp [State.sxInt, State.sx, State.reg, h]

theorem State.operandAddress_congr (i : Instr) (h : s.regs = s'.regs) :
    s.operandAddress i = s'.operandAddress i := by
  cases i with
  | ld _ x k | st _ x k | add _ x k | sub _ x k | mul _ x k | div _ x k | bor _ x k | band _ x k | inDec x k
  | outDec x k => exact congrArg some (State.sxInt_congr x k h)
  | ldi | shl | shr | inChr | outChr | halt | djmp | jrel | jmp | brz | brn | brs | nop => rfl

/-- Of the state before the body, the end of a cycle reads the registers, the PC and the memory alone. -/
theorem finishCycle_congr (f : Fetched) (t : State) (hregs : s.regs = s'.regs) (hpc : s.pc = s'.pc)
    (hmem : s.mem = s'.mem) : finishCycle f s t = finishCycle f s' t := by
  have hrecord : traceRecord f s t = traceRecord f s' t := by
    simp only [traceRecord, State.memRead, hregs, hpc, hmem, State.operandAddress_congr _ hregs]
  simp only [finishCycle, State.completeCycle, hrecord]

end

/-- `s` with `o` as the cycle it holds. -/
def State.setFetched (s : State) (o : Option Fetched) : State := { s with fetched := o }

/-- The end of a cycle says itself what is held after it. -/
theorem finishCycle_setFetched (f : Fetched) (s t : State) (o : Option Fetched) :
    finishCycle f s (t.setFetched o) = finishCycle f s t := by
  obtain ⟨regs, pc, mem, run, count, input, outAnswers, output, warning, wait, fetched, trace⟩ := t
  cases run with
  | running => cases wait <;> rfl
  | halted => rfl
  | aborted q => rfl

theorem State.store_setFetched (s : State) (x : Reg) (k : Addr) (v : Word) (o : Option Fetched) :
    (s.setFetched o).orWarn ((s.setFetched o).writeOperand x k v) =
      (s.orWarn (s.writeOperand x k v)).setFetched o := by
  unfold State.writeOperand State.memWrite
  rw [State.sxInt_congr (s := s.setFetched o) (s' := s) x k rfl]
  split <;> rfl

/-- Of the input channel and the wait, IO r=0 sees only what reading the token gives; the held cycle it does not see. -/
theorem execInDec_setInput {x : Reg} {k : Addr} {s t : State} {l : List InAnswer} {w : Option (List Byte)}
    (o : Option Fetched) (hread : readToken (w.getD []) l = readToken (s.wait.getD []) s.input)
    (h : execInDec x k s = .next t) :
    execInDec x k ((s.setInput l w).setFetched o) = .next (t.setFetched o) := by
  have hread' : readToken (((s.setInput l w).setFetched o).wait.getD []) ((s.setInput l w).setFetched o).input =
      readToken (s.wait.getD []) s.input := hread
  unfold execInDec at h ⊢
  rw [hread']
  generalize readToken (s.wait.getD []) s.input = p at h ⊢
  obtain ⟨e, rest⟩ := p
  cases e with
  | wait tok => cases h; rfl
  | abort q => cases h; rfl
  | token tok =>
    dsimp only at h ⊢
    cases hv : tokenValue tok with
    | none => rw [hv] at h; cases h; rfl
    | some v =>
      rw [hv] at h
      cases h
      exact congrArg Host.Outcome.next ((s.setInput rest none).store_setFetched x k v o)

/-- IO r=1 sees neither the wait nor the held cycle. -/
theorem execInChr_setInput {x : Reg} {k : Addr} {s t : State} (w : Option (List Byte)) (o : Option Fetched)
    (h : execInChr x k s = .next t) :
    execInChr x k ((s.setInput s.input w).setFetched o) = .next (t.setFetched o) := by
  obtain ⟨regs, pc, mem, run, count, input, outAnswers, output, warning, wait, fetched, trace⟩ := s
  cases input with
  | nil => cases h; rfl
  | cons a as =>
    cases a with
    | byte b adv => cases adv <;> cases h <;> rfl
    | eof => cases h; rfl
    | err => cases h; rfl

/-- A body that waited in `u` and is answered then does what it does in `s` when answered there, but for the cycle that
is held meanwhile. -/
theorem exec_resume {i : Instr} {s u v : State} {tok : List Byte} {more : List InAnswer} (o : Option Fetched)
    (hs : s.wait = none ∨ heldBody i s.wait = true) (h : exec i s = .next u) (hw : u.wait = some tok)
    (hv : exec i (s.deliver more) = .next v) :
    exec i ((u.setFetched o).deliver more) = .next (v.setFetched o) := by
  obtain ⟨-, hbody⟩ := exec_wait_some hs h hw
  obtain ⟨x, k, rfl | rfl⟩ := input_of_heldBody hbody
  · obtain ⟨_, _, hread, ⟨_, rfl, rfl⟩ | ⟨_, -, rfl⟩ | ⟨_, -, ⟨-, rfl⟩ | ⟨_, -, ⟨-, rfl⟩ | ⟨-, rfl⟩⟩⟩⟩ :=
      execInDec_cases h
    · exact execInDec_setInput (s := s.deliver more) o (readToken_resume more hread).symm hv
    all_goals cases hw
  · obtain ⟨hinput, rfl⟩ | ⟨_, -, rfl⟩ | ⟨_, _, -, rfl⟩ := execInChr_cases (k := k) h
    · have hdeliver : (s.deliver more).input = more := by rw [State.deliver_input, hinput]; rfl
      have hresume := execInChr_setInput (k := k) (some []) o hv
      rwa [hdeliver] at hresume
    all_goals cases hw

/-- A cycle whose body ends with the cycle held goes on, when it is answered, as it would have gone on from its start. -/
theorem BodyReady.runBody_resume {f : Fetched} {s t : State} (hs : BodyReady f s) (h : runBody f s = .next t)
    (ht : t.fetched ≠ none) (more : List InAnswer) :
    t.run = .running ∧ t.fetched = some f ∧ runBody f (t.deliver more) = runBody f (s.deliver more) := by
  obtain ⟨u, hu, rfl⟩ := runBody_next h
  obtain ⟨hrun, hw, hend⟩ | ⟨-, -, hend⟩ | ⟨-, hend⟩ | ⟨_, -, hend⟩ := finishCycle_cases f s u <;> rw [hend] at ht ⊢
  · obtain ⟨tok, hw⟩ := Option.ne_none_iff_exists'.mp hw
    obtain ⟨⟨rest, hrest⟩, -⟩ := exec_wait_some hs.wait hu hw
    obtain ⟨v, hv⟩ := exec_answers (decode f.word) (s.deliver more)
    refine ⟨hrun, rfl, ?_⟩
    calc runBody f ((u.setFetched (some f)).deliver more)
        = .next (finishCycle f ((u.setFetched (some f)).deliver more) (v.setFetched (some f))) :=
          runBody_of_exec (exec_resume (some f) hs.wait hu hw hv)
      _ = .next (finishCycle f (s.deliver more) v) := by
          rw [finishCycle_setFetched]
          subst hrest
          exact congrArg Host.Outcome.next (finishCycle_congr f v rfl rfl rfl)
      _ = runBody f (s.deliver more) := (runBody_of_exec hv).symm
  all_goals exact absurd rfl ht

/-- Settles O52: a held step is a body, resumed or fresh, that waits; it is resumed where it waited. -/
theorem lateInputMakesNoDifference : Obligations.LateInputMakesNoDifference := by
  intro s t more hinv h ht
  by_cases hrun : s.run = .running
  · cases hf : s.fetched with
    | some f =>
      rw [step_of_held hrun hf] at h
      obtain ⟨htrun, htf, hresume⟩ := (bodyReady_of_held hinv hf).runBody_resume h ht more
      rw [step_of_held (s := t.deliver more) htrun htf, step_of_held (s := s.deliver more) hrun hf, hresume]
    | none =>
      obtain hlimit | hlt := le_or_gt 200 s.count
      · rw [step_of_limit hrun hf hlimit] at h
        cases h
        exact absurd hf ht
      · rw [step_of_fetch hrun hf hlt] at h
        obtain ⟨hmem, -, -, hout⟩ := s.inv_iff.mp hinv
        obtain ⟨htrun, htf, hresume⟩ := (bodyReady_of_fetch hmem hrun hout hlt).runBody_resume h ht more
        rw [step_of_held (s := t.deliver more) htrun htf, step_of_fetch (s := s.deliver more) hrun hf hlt]
        exact hresume
  · rw [step_of_terminal hrun] at h
    cases h
    rfl

end Sys2Proof.Machine
end

section
/-! PROOFS. Loads and stores (42_load_store.md): LD (O5), LDI (O6) and ST (O7). -/

namespace Sys2Proof.Machine

theorem exec_ld (r x : Reg) (k : Addr) (s : State) :
    exec (.ld r x k) s = .next (s.orWarn ((s.readOperand x k).map (s.setReg r))) := rfl

/-- Settles O5, by the bounds check on the operand's address. -/
theorem ldLoadsOrWarns : Obligations.LdLoadsOrWarns := by
  intro r x k s
  rw [exec_ld]
  refine ⟨Laws.EncodeMatches.ld r x k, fun a ha h => ?_, fun h => ?_⟩
  · rw [State.load_legal _ ha h]; rfl
  · rw [State.load_illegal _ h]; rfl

theorem exec_ldi (r x : Reg) (k : Addr) (s : State) : exec (.ldi r x k) s = .next (s.setReg r (s.sx x k)) := rfl

/-- The operand value as a sum of Words. -/
theorem State.sx_eq_add_of_ne_r0 (s : State) {x : Reg} (k : Addr) (h : x ≠ .r0) :
    s.sx x k = k.setWidth 20 + s.regs.get x := by
  rw [s.sx_of_ne_r0 k h, BitVec.ofNat_add, ← zext20_eq_ofNat, BitVec.ofNat_toNat, BitVec.setWidth_eq]

/-- Settles O6: the body writes the operand value, in either of its two forms. -/
theorem ldiLoadsTheOperandValue : Obligations.LdiLoadsTheOperandValue := by
  intro r x k s
  refine ⟨Laws.EncodeMatches.ldi r x k, rfl, fun hx => ?_⟩
  rw [exec_ldi, s.sx_eq_add_of_ne_r0 k hx]; rfl

/-- A store to the operand's address, where that is illegal. -/
theorem State.store_illegal {s : State} {x : Reg} {k : Addr} (v : Word) (h : s.sxInt x k < 0 ∨ 256 ≤ s.sxInt x k) :
    s.orWarn (s.writeOperand x k v) = s.warn (.illegalAddress (s.sxInt x k)) := by
  have hillegal : ¬legalAddress (s.sxInt x k) := by rw [legalAddress_iff]; omega
  rw [State.writeOperand, State.memWrite_error.mpr ⟨hillegal, rfl⟩]; rfl

/-- Settles O7, by the bounds check on the operand's address. -/
theorem stStoresOrWarns : Obligations.StStoresOrWarns := by
  intro r x k s
  rw [exec_st]
  refine ⟨Laws.EncodeMatches.st r x k, fun a ha h => ?_, fun h => ?_⟩
  · rw [State.store_legal _ ha h]; rfl
  · rw [State.store_illegal _ h]; rfl

end Sys2Proof.Machine
end

section
/-! PROOFS. Arithmetic and logic (43_arith_logic.md): ADD (O8), SUB (O9), MUL (O10), DIV (O11), OR (O12) and
AND (O13). -/

namespace Sys2Proof.Machine

/-! ### What the six instructions share -/

/-- ADD to AND with the memory operand at a legal address: what is left is the operation's own condition. -/
theorem State.arith_legal {s : State} (op : Word → Word → Except Warning Word) (r : Reg) {x : Reg} {k : Addr}
    {a : Nat} (ha : a < 256) (h : s.sxInt x k = a) :
    s.arith op r x k = s.orWarn ((op (s.regs.get r) (s.mem.read a)).map (s.setReg r)) := by
  rw [State.arith, State.readOperand, h, s.memRead_legal ha]; rfl

/-- ADD to AND with the memory operand at any other address: the operation does not run. -/
theorem State.arith_illegal {s : State} (op : Word → Word → Except Warning Word) (r : Reg) {x : Reg} {k : Addr}
    (h : s.sxInt x k < 0 ∨ 256 ≤ s.sxInt x k) : s.arith op r x k = s.warn (.illegalAddress (s.sxInt x k)) := by
  have hillegal : ¬legalAddress (s.sxInt x k) := by rw [legalAddress_iff]; omega
  rw [State.arith, State.readOperand, State.memRead_error.mpr ⟨hillegal, rfl⟩]; rfl

/-- An instruction whose operation has no condition of its own (all but DIV) writes its result, computed by `f`, or
records IllegalAddress. -/
theorem exec_arith_total {i : Instr} {r x : Reg} {k : Addr} {s : State} {op f : Word → Word → Word}
    (hexec : exec i s = .next (s.arith (fun v m => .ok (op v m)) r x k)) (hop : ∀ v m, op v m = f v m) :
    (∀ a : Nat, a < 256 → s.sxInt x k = a →
      exec i s = .next { s with regs := s.regs.set r (f (s.regs.get r) (s.mem.read a)) }) ∧
    (s.sxInt x k < 0 ∨ 256 ≤ s.sxInt x k →
      exec i s = .next { s with warning := some (.illegalAddress (s.sxInt x k)) }) := by
  rw [hexec]
  refine ⟨fun a ha h => ?_, fun h => ?_⟩
  · rw [State.arith_legal _ r ha h, hop]; rfl
  · rw [State.arith_illegal _ r h]; rfl

/-! ### The instructions -/

theorem exec_add (r x : Reg) (k : Addr) (s : State) :
    exec (.add r x k) s = .next (s.arith (fun v m => .ok (aluAdd v m)) r x k) := rfl

/-- Settles O8: the unit's addition is that of `BitVec`. -/
theorem addAddsOrWarns : Obligations.AddAddsOrWarns :=
  fun r x k s => ⟨Laws.EncodeMatches.add r x k, exec_arith_total (exec_add r x k s) aluAdd_eq_add⟩

theorem exec_sub (r x : Reg) (k : Addr) (s : State) :
    exec (.sub r x k) s = .next (s.arith (fun v m => .ok (aluSubtract v m)) r x k) := rfl

/-- Settles O9: adding the negated Word is the subtraction of `BitVec`. -/
theorem subSubtractsOrWarns : Obligations.SubSubtractsOrWarns :=
  fun r x k s => ⟨Laws.EncodeMatches.sub r x k, exec_arith_total (exec_sub r x k s) aluSubtract_eq_sub⟩

theorem exec_mul (r x : Reg) (k : Addr) (s : State) :
    exec (.mul r x k) s = .next (s.arith (fun v m => .ok (aluMultiply v m)) r x k) := rfl

/-- Settles O10: the low 20 bits of the product are the product of `BitVec`. -/
theorem mulMultipliesOrWarns : Obligations.MulMultipliesOrWarns :=
  fun r x k s => ⟨Laws.EncodeMatches.mul r x k, exec_arith_total (exec_mul r x k s) aluMultiply_eq_mul⟩

theorem exec_div (r x : Reg) (k : Addr) (s : State) : exec (.div r x k) s = .next (s.arith aluDivideBy r x k) := rfl

/-- Settles O11: the address is checked first, then the divisor. -/
theorem divDividesOrWarns : Obligations.DivDividesOrWarns := by
  intro r x k s
  rw [exec_div]
  refine ⟨Laws.EncodeMatches.div r x k, fun a ha h => ?_, fun h => ?_⟩
  · rw [State.arith_legal _ r ha h]
    refine ⟨fun hne => ?_, fun hzero => ?_⟩
    · rw [aluDivideBy_of_ne_zero _ hne]; rfl
    · rw [hzero, aluDivideBy_zero]; rfl
  · rw [State.arith_illegal _ r h]; rfl

theorem exec_bor (r x : Reg) (k : Addr) (s : State) :
    exec (.bor r x k) s = .next (s.arith (fun v m => .ok (aluOr v m)) r x k) := rfl

/-- Settles O12: the unit's disjunction is that of `BitVec` by definition. -/
theorem orOrsOrWarns : Obligations.OrOrsOrWarns :=
  fun r x k s => ⟨Laws.EncodeMatches.bor r x k, exec_arith_total (exec_bor r x k s) fun _ _ => rfl⟩

theorem exec_band (r x : Reg) (k : Addr) (s : State) :
    exec (.band r x k) s = .next (s.arith (fun v m => .ok (aluAnd v m)) r x k) := rfl

/-- Settles O13: the unit's conjunction is that of `BitVec` by definition. -/
theorem andAndsOrWarns : Obligations.AndAndsOrWarns :=
  fun r x k s => ⟨Laws.EncodeMatches.band r x k, exec_arith_total (exec_band r x k s) fun _ _ => rfl⟩

end Sys2Proof.Machine
end

section
/-! PROOFS. Shifts (44_shift.md): SHL (O14) and SHR (O15). -/

namespace Sys2Proof.Machine

/-- An instruction of the shift form whose operation computes `f` for the amounts 0..19 and rejects every other amount:
it writes the result, or records InvalidShiftAmount. -/
theorem exec_shift {i : Instr} {r x : Reg} {k : Addr} {s : State} {op : Word → Int → Except Warning Word}
    {f : Word → Nat → Word} (hexec : exec i s = .next (s.shift op r x k))
    (hlegal : ∀ (a : Word) {n : Nat}, n ≤ 19 → op a n = .ok (f a n))
    (hinvalid : ∀ (a : Word) {n : Int}, n < 0 ∨ 19 < n → op a n = .error (.invalidShiftAmount n)) :
    (∀ n : Nat, n ≤ 19 → s.sxInt x k = n →
      exec i s = .next { s with regs := s.regs.set r (f (s.regs.get r) n) }) ∧
    (s.sxInt x k < 0 ∨ 19 < s.sxInt x k →
      exec i s = .next { s with warning := some (.invalidShiftAmount (s.sxInt x k)) }) := by
  rw [hexec, State.shift]
  refine ⟨fun n hn h => ?_, fun h => ?_⟩
  · rw [h, hlegal _ hn]; rfl
  · rw [hinvalid _ h]; rfl

/-- For a legal amount the unit's left shift is that of `BitVec`, which shifts the unsigned value and drops the high
bits. -/
theorem aluShiftLeft_eq_shiftLeft (a : Word) {n : Nat} (h : n ≤ 19) : aluShiftLeft a n = .ok (a <<< n) := by
  have hvalue : (a.toNat : Int) * 2 ^ n = (a.toNat <<< n : Nat) := by
    rw [Nat.shiftLeft_eq, Nat.cast_mul, Nat.cast_pow, Nat.cast_ofNat]
  rw [aluShiftLeft_of_le a h, hvalue, wrap20, BitVec.ofInt_natCast]; rfl

theorem exec_shl (r x : Reg) (k : Addr) (s : State) : exec (.shl r x k) s = .next (s.shift aluShiftLeft r x k) := rfl

/-- Settles O14: the unit's left shift is that of `BitVec`. -/
theorem shlShiftsOrWarns : Obligations.ShlShiftsOrWarns :=
  fun r x k s => ⟨Laws.EncodeMatches.shl r x k,
    exec_shift (exec_shl r x k s) aluShiftLeft_eq_shiftLeft fun a _ h => (aluShift_invalid a h).1⟩

theorem exec_shr (r x : Reg) (k : Addr) (s : State) : exec (.shr r x k) s = .next (s.shift aluShiftRight r x k) := rfl

/-- Settles O15: the unit's right shift is the floor of the quotient by the power of two. -/
theorem shrShiftsOrWarns : Obligations.ShrShiftsOrWarns :=
  fun r x k s => ⟨Laws.EncodeMatches.shr r x k,
    exec_shift (exec_shr r x k s) aluShiftRight_of_le fun a _ h => (aluShift_invalid a h).2⟩

end Sys2Proof.Machine
end

section
/-! PROOFS. Input (45_io.md): a fresh body of IO r=0 on every kind of input (O16), IO r=1 (O17), channel calls without
a listed answer (O20), and the grammar of tokens (O37). -/

namespace Sys2Proof.Machine

/-! ### Reading a token, by what follows its bytes -/

/-- Reading separators and then token bytes is going on with these bytes taken. -/
theorem readToken_okBytes {seps tok : List Byte} (rest : List InAnswer) (hseps : seps.all isSeparator = true)
    (htok : (tok.all fun b => !isSeparator b) = true) :
    readToken [] (okBytes seps ++ okBytes tok ++ rest) = readToken tok rest := by
  rw [List.append_assoc, readToken_separators _ hseps]
  cases tok with
  | nil => rfl
  | cons b bs =>
    have hb : isSeparator b = false := by simpa using List.all_eq_true.mp htok b List.mem_cons_self
    calc readToken [] (okBytes (b :: bs) ++ rest)
        = collectToken [] (okBytes (b :: bs) ++ rest) := readToken_of_token_byte .ok (okBytes bs ++ rest) hb
      _ = collectToken (b :: bs) rest := collectToken_append [] rest htok
      _ = readToken (b :: bs) rest := (readToken_of_ne_nil rest (List.cons_ne_nil b bs)).symm

/-- No more input: the reading waits, whatever was taken. -/
theorem readToken_nil (tok : List Byte) : readToken tok [] = (.wait tok, []) := by
  cases tok with
  | nil => rfl
  | cons b bs => rfl

/-- A separator or EOF ends a token that has begun, and is not consumed. -/
theorem readToken_endsToken {tok : List Byte} {rest : List InAnswer} (htok : tok ≠ []) (h : endsToken rest = true) :
    readToken tok rest = (.token tok, rest) := by
  rw [readToken_of_ne_nil _ htok]
  cases rest with
  | nil => cases h
  | cons a l =>
    cases a with
    | byte b adv => cases adv <;> exact if_pos h
    | eof => rfl
    | err => cases h

theorem readToken_err (tok : List Byte) (l : List InAnswer) :
    readToken tok (.err :: l) = (.abort .illegalIO, .err :: l) := by
  cases tok with
  | nil => rfl
  | cons b bs => rfl

/-- A byte that cannot be consumed aborts the reading, unless it is the separator that ends a token. -/
theorem readToken_byte_err {tok : List Byte} {b : Byte} (l : List InAnswer)
    (h : isSeparator b = true → tok = []) :
    readToken tok (.byte b .err :: l) = (.abort .illegalIO, .byte b .err :: l) := by
  cases hb : isSeparator b with
  | true => rw [h hb]; simp [readToken, skipSeparators, hb]
  | false =>
    have hcollect : collectToken tok (.byte b .err :: l) = (.abort .illegalIO, .byte b .err :: l) := by
      simp [collectToken, hb]
    by_cases htok : tok = []
    · subst htok
      rw [readToken_of_token_byte _ _ hb, hcollect]
    · rw [readToken_of_ne_nil _ htok, hcollect]

/-! ### IO r=0 -/

theorem exec_inDec (x : Reg) (k : Addr) (s : State) : exec (.inDec x k) s = execInDec x k s := rfl

/-- Moving a channel on which nobody waits. -/
theorem State.setInput_of_wait_none (s : State) (rest : List InAnswer) (hw : s.wait = none) :
    s.setInput rest none = { s with input := rest } := by
  rw [State.setInput, ← hw]

section
variable {x : Reg} {k : Addr} {s : State} {tok : List Byte} {rest : List InAnswer}

/-! The body, by how the reading of its token ends. -/

theorem exec_inDec_wait (h : readToken (s.wait.getD []) s.input = (.wait tok, rest)) :
    exec (.inDec x k) s = .next (s.setInput rest (some tok)) := by
  rw [exec_inDec, execInDec, h]

theorem exec_inDec_abort {q : AbortReason} (h : readToken (s.wait.getD []) s.input = (.abort q, rest)) :
    exec (.inDec x k) s = .next ((s.setInput rest none).abort q) := by
  rw [exec_inDec, execInDec, h]

theorem exec_inDec_malformed (h : readToken (s.wait.getD []) s.input = (.token tok, rest))
    (hv : tokenValue tok = none) :
    exec (.inDec x k) s = .next ((s.setInput rest none).warn (.malformedNumber tok)) := by
  simp only [exec_inDec, execInDec, h, hv]

theorem exec_inDec_store {v : Word} (h : readToken (s.wait.getD []) s.input = (.token tok, rest))
    (hv : tokenValue tok = some v) :
    exec (.inDec x k) s =
      .next ((s.setInput rest none).orWarn ((s.setInput rest none).writeOperand x k v)) := by
  simp only [exec_inDec, execInDec, h, hv]

end

/-- Settles O16, by what follows the token bytes on the channel. -/
theorem inDecReadsATokenOrStops : Obligations.InDecReadsATokenOrStops := by
  intro x k s seps tok rest
  refine ⟨Laws.EncodeMatches.inDec x k, fun hseps htok hw hinput => ?_⟩
  have hread : readToken (s.wait.getD []) s.input = readToken tok rest := by
    rw [hw, hinput]; exact readToken_okBytes rest hseps htok
  have hmove := s.setInput_of_wait_none rest hw
  refine ⟨fun hne hends => ?_, ?_, ?_, ?_⟩
  · have htoken := hread.trans (readToken_endsToken hne hends)
    have hsx : State.sxInt { s with input := rest } x k = s.sxInt x k := State.sxInt_congr x k rfl
    refine ⟨fun v a hv ha haddr => ?_, fun v hv haddr => ?_, fun hv => ?_⟩
    · rw [exec_inDec_store htoken hv, hmove, State.store_legal v ha (hsx.trans haddr)]; rfl
    · rw [exec_inDec_store htoken hv, hmove, State.store_illegal v (hsx.symm ▸ haddr), hsx]; rfl
    · rw [exec_inDec_malformed htoken hv, hmove]; rfl
  · rintro rfl l rfl
    rw [exec_inDec_abort hread, hmove]; rfl
  · rintro l rfl
    rw [exec_inDec_abort (hread.trans (readToken_err tok l)), hmove]; rfl
  · rintro b l rfl hb
    rw [exec_inDec_abort (hread.trans (readToken_byte_err l hb)), hmove]; rfl

/-! ### IO r=1 -/

theorem exec_inChr (x : Reg) (k : Addr) (s : State) : exec (.inChr x k) s = execInChr x k s := rfl

/-- Settles O17, by the answer at the head of the channel. -/
theorem inChrReadsAByteOrStops : Obligations.InChrReadsAByteOrStops := by
  intro x k s b l
  refine ⟨Laws.EncodeMatches.inChr x k, fun h => ?_, fun h => ?_, fun h => ?_, fun h => ?_⟩ <;>
    simp only [exec_inChr, execInChr, h] <;> rfl

/-! ### Channel calls without a listed answer -/

theorem State.emitOut_nil {s : State} (e : OutEvent) (h : s.outAnswers = []) :
    s.emitOut e = { s with output := s.output ++ [e] } := by
  simp only [State.emitOut, h]

/-- Settles O20: the token loop that finds no more input waits with what it took, and a used-up answer list is ok. -/
theorem unansweredChannelCalls : Obligations.UnansweredChannelCalls := by
  intro x k s
  refine ⟨fun seps tok hseps htok hw hinput => ?_, fun hinput => ?_, fun hout => ⟨fun a ha haddr => ?_, ?_⟩⟩
  · refine exec_inDec_wait ?_
    rw [hw, hinput, ← List.append_nil (okBytes seps ++ okBytes tok), Option.getD_none,
      readToken_okBytes [] hseps htok, readToken_nil]
  · rw [exec_inChr, execInChr, hinput]
    dsimp only
    rw [State.setInput, ← hinput]
  · rw [exec_outDec, State.load_legal _ ha haddr, State.emitOut_nil _ hout]
  · rw [exec_outChr, State.emitOut_nil _ hout]

/-! ### The grammar of tokens -/

theorem isSeparator_iff (b : Byte) :
    isSeparator b = true ↔ b.toNat ≤ 32 ∨ (127 ≤ b.toNat ∧ b.toNat ≤ 160) := decide_eq_true_iff

/-- The byte that spells a decimal digit (45_io.md R261). -/
def digitByte (d : Nat) : Byte := BitVec.ofNat 8 (0x30 + d)

theorem digitByte_toNat {d : Nat} (hd : d ≤ 9) : (digitByte d).toNat = 0x30 + d := by
  rw [digitByte, BitVec.toNat_ofNat, Nat.mod_eq_of_lt (by omega)]

theorem digitByte_sub {b : Byte} (hb : 0x30 ≤ b.toNat) : digitByte (b.toNat - 0x30) = b := by
  rw [digitByte, Nat.add_sub_cancel' hb, BitVec.ofNat_toNat, BitVec.setWidth_eq]

theorem digitByte_ne {d : Nat} {c : Byte} (hd : d ≤ 9) (hc : c.toNat < 0x30) : digitByte d ≠ c := by
  rintro rfl
  rw [digitByte_toNat hd] at hc
  omega

/-- The number that decimal digits spell, most significant first. -/
def digitsNumber (ds : List Nat) : Nat := ds.foldl (fun acc d => acc * 10 + d) 0

/-- Digit bytes spell the number that their digits continue from the value `acc`. -/
theorem decimalDigits_digitByte (acc : Nat) {ds : List Nat} (hds : ∀ d ∈ ds, d ≤ 9) :
    decimalDigits acc (ds.map digitByte) = some (ds.foldl (fun acc d => acc * 10 + d) acc) := by
  induction ds generalizing acc with
  | nil => rfl
  | cons d ds ih =>
    obtain ⟨hd, hds⟩ := List.forall_mem_cons.mp hds
    have hbyte := digitByte_toNat hd
    rw [List.map_cons, decimalDigits, if_pos (by omega), hbyte, Nat.add_sub_cancel_left, ih _ hds]; rfl

/-- Whatever spells a number is digit bytes. -/
theorem exists_digits_of_decimalDigits {acc : Nat} {bs : List Byte} (h : decimalDigits acc bs ≠ none) :
    ∃ ds : List Nat, (∀ d ∈ ds, d ≤ 9) ∧ bs = ds.map digitByte := by
  induction bs generalizing acc with
  | nil => exact ⟨[], nofun, rfl⟩
  | cons b bs ih =>
    rw [decimalDigits, ite_ne_right_iff] at h
    obtain ⟨⟨hlow, hhigh⟩, hrest⟩ := h
    obtain ⟨ds, hds, rfl⟩ := ih hrest
    exact ⟨(b.toNat - 0x30) :: ds, List.forall_mem_cons.mpr ⟨by omega, hds⟩,
      by rw [List.map_cons, digitByte_sub hlow]⟩

theorem decimalNumber_of_ne_nil {bs : List Byte} (h : bs ≠ []) : decimalNumber bs = decimalDigits 0 bs := by
  cases bs with
  | nil => exact absurd rfl h
  | cons b bs => rfl

/-- One or more digit bytes spell a number. -/
theorem decimalNumber_digitByte {ds : List Nat} (hne : ds ≠ []) (hds : ∀ d ∈ ds, d ≤ 9) :
    decimalNumber (ds.map digitByte) = some (digitsNumber ds) := by
  rw [decimalNumber_of_ne_nil (by simpa using hne), decimalDigits_digitByte 0 hds, digitsNumber]

/-- Nothing else spells a number. -/
theorem exists_digits_of_decimalNumber {bs : List Byte} (h : decimalNumber bs ≠ none) :
    ∃ ds : List Nat, ds ≠ [] ∧ (∀ d ∈ ds, d ≤ 9) ∧ bs = ds.map digitByte := by
  have hne : bs ≠ [] := by rintro rfl; exact h rfl
  rw [decimalNumber_of_ne_nil hne] at h
  obtain ⟨ds, hds, rfl⟩ := exists_digits_of_decimalDigits h
  exact ⟨ds, by simpa using hne, hds, rfl⟩

/-! `tokenInt` turns the number into an integer inside its `Option`, so each branch is compared value by value. -/

theorem tokenInt_plus (bs : List Byte) :
    tokenInt (0x2B#8 :: bs) = (decimalNumber bs).map fun n : Nat => (n : Int) := by
  rw [tokenInt, if_pos rfl]; cases decimalNumber bs <;> rfl

theorem tokenInt_minus (bs : List Byte) :
    tokenInt (0x2D#8 :: bs) = (decimalNumber bs).map fun n : Nat => -(n : Int) := by
  rw [tokenInt, if_neg (by decide), if_pos rfl]; cases decimalNumber bs <;> rfl

theorem tokenInt_unsigned {b : Byte} {bs : List Byte} (hplus : b ≠ 0x2B#8) (hminus : b ≠ 0x2D#8) :
    tokenInt (b :: bs) = (decimalNumber (b :: bs)).map fun n : Nat => (n : Int) := by
  rw [tokenInt, if_neg hplus, if_neg hminus]; cases decimalNumber (b :: bs) <;> rfl

/-- No digit byte is a sign. -/
theorem tokenInt_digitByte {ds : List Nat} (hne : ds ≠ []) (hds : ∀ d ∈ ds, d ≤ 9) :
    tokenInt (ds.map digitByte) = (decimalNumber (ds.map digitByte)).map fun n : Nat => (n : Int) := by
  cases ds with
  | nil => exact absurd rfl hne
  | cons d ds =>
    have hd : d ≤ 9 := hds d List.mem_cons_self
    exact tokenInt_unsigned (digitByte_ne hd (by decide)) (digitByte_ne hd (by decide))

/-- A token that spells an integer is a number behind at most one sign. -/
theorem exists_number_of_tokenInt {tok : List Byte} (h : tokenInt tok ≠ none) :
    ∃ bs, decimalNumber bs ≠ none ∧ (tok = bs ∨ tok = 0x2B#8 :: bs ∨ tok = 0x2D#8 :: bs) := by
  cases tok with
  | nil => exact absurd rfl h
  | cons b bs =>
    by_cases hplus : b = 0x2B#8
    · subst hplus
      rw [tokenInt_plus, ne_eq, Option.map_eq_none_iff] at h
      exact ⟨bs, h, .inr (.inl rfl)⟩
    · by_cases hminus : b = 0x2D#8
      · subst hminus
        rw [tokenInt_minus, ne_eq, Option.map_eq_none_iff] at h
        exact ⟨bs, h, .inr (.inr rfl)⟩
      · rw [tokenInt_unsigned hplus hminus, ne_eq, Option.map_eq_none_iff] at h
        exact ⟨b :: bs, h, .inl rfl⟩

/-- The Word of digits behind at most one sign is that of the integer they spell. -/
theorem tokenValue_digitByte {ds : List Nat} (hne : ds ≠ []) (hds : ∀ d ∈ ds, d ≤ 9) :
    tokenValue (ds.map digitByte) = fromDecimal (digitsNumber ds) ∧
      tokenValue (0x2B#8 :: ds.map digitByte) = fromDecimal (digitsNumber ds) ∧
      tokenValue (0x2D#8 :: ds.map digitByte) = fromDecimal (-digitsNumber ds) := by
  have hnumber := decimalNumber_digitByte hne hds
  refine ⟨?_, ?_, ?_⟩
  · rw [tokenValue, tokenInt_digitByte hne hds, hnumber]; rfl
  · rw [tokenValue, tokenInt_plus, hnumber]; rfl
  · rw [tokenValue, tokenInt_minus, hnumber]; rfl

theorem fromDecimal_of_mem {n : Int} (hlow : -524288 ≤ n) (hhigh : n ≤ 524287) : fromDecimal n = some (wrap20 n) :=
  if_pos ((isRepresentable_iff n).mpr ⟨hlow, hhigh⟩)

theorem fromDecimal_of_not_mem {n : Int} (h : n < -524288 ∨ 524287 < n) : fromDecimal n = none :=
  if_neg fun hrep => by have := (isRepresentable_iff n).mp hrep; omega

/-- Settles O37: digits spell a number, a sign goes in front, and the range of `fromDecimal` decides. -/
theorem tokenGrammar : Obligations.TokenGrammar := by
  refine ⟨isSeparator_iff, fun ds hne hds => ?_, fun tok h => ?_⟩
  · obtain ⟨hdigits, hplus, hminus⟩ := tokenValue_digitByte hne hds
    refine ⟨fun (hn : digitsNumber ds ≤ 524287) => ?_, fun (hn : 524287 < digitsNumber ds) => ?_,
      fun (hn : digitsNumber ds ≤ 524288) => ?_, fun (hn : 524288 < digitsNumber ds) => ?_⟩
    · have hword := fromDecimal_of_mem (n := digitsNumber ds) (by omega) (by omega)
      exact ⟨hdigits.trans hword, hplus.trans hword⟩
    · have hnone := fromDecimal_of_not_mem (n := digitsNumber ds) (by omega)
      exact ⟨hdigits.trans hnone, hplus.trans hnone⟩
    · exact hminus.trans (fromDecimal_of_mem (by omega) (by omega))
    · exact hminus.trans (fromDecimal_of_not_mem (by omega))
  · have hint : tokenInt tok ≠ none := fun hnone => h (by rw [tokenValue, hnone]; rfl)
    obtain ⟨bs, hbs, hsign⟩ := exists_number_of_tokenInt hint
    obtain ⟨ds, hne, hds, rfl⟩ := exists_digits_of_decimalNumber hbs
    exact ⟨ds, hne, hds, hsign⟩

end Sys2Proof.Machine
end

section
/-! PROOFS. Control transfer (46_control.md): BR r=0 to r=3 (O21 to O24), BRZ (O25), BRN (O26), BRS (O27) and
NOP (O28). -/

namespace Sys2Proof.Machine

/-! ### HALT -/

/-- The mask that keeps all of an instruction Word but the s-field. -/
theorem and_clearSField (w : Word) : w &&& 0xFFF00#20 = w >>> 8 <<< 8 := by
  apply BitVec.eq_of_getLsbD_eq
  intro i hi
  have h : i ∈ List.range 20 := by simpa using hi
  fin_cases h <;> simp

theorem pack_and_clearSField (op r x v : Nat) (k : Addr) :
    pack op r x v k &&& 0xFFF00#20 = pack op r x v 0#8 := by
  have hk := k.isLt
  apply BitVec.eq_of_toNat_eq
  simp only [and_clearSField, pack, BitVec.toNat_shiftLeft, BitVec.toNat_ushiftRight, BitVec.toNat_ofNat,
    Nat.shiftLeft_eq, Nat.shiftRight_eq_div_pow]
  omega

/-- The s-field aside, the Word of a HALT is that of its verbosity. -/
theorem encode_halt_and_clearSField (v : Verbosity) (k : Addr) :
    encode (.halt v k) &&& 0xFFF00#20 = encode (.halt v 0#8) := pack_and_clearSField ..

theorem exec_halt (v : Verbosity) (k : Addr) (s : State) :
    exec (.halt v k) s = .next ((s.emitDump v).setRun .halted) := rfl

/-- Settles O21: the dump is a case of `State.emitDump`, and the x field the verbosity's index. -/
theorem haltDumpsAndHalts : Obligations.HaltDumpsAndHalts := by
  intro v k s
  simp only [exec_halt, encode_halt_and_clearSField]
  exact ⟨Laws.EncodeMatches.halt v k, rfl, rfl, rfl, rfl, rfl, rfl, rfl, rfl⟩

/-! ### Jumps -/

/-- An instruction that ends with `setPC` in the state `t`: it moves the PC, or records IllegalAddress, and keeps the
rest of `t`. -/
theorem exec_jump {i : Instr} {s t : State} {w : Word} (hexec : exec i s = .next (t.orWarn (t.setPC w))) :
    (w.toInt < 256 → exec i s = .next { t with pc := w.setWidth 8 }) ∧
    (256 ≤ w.toInt → exec i s = .next { t with warning := some (.illegalAddress w.toInt) }) := by
  rw [hexec]
  refine ⟨fun h => ?_, fun h => ?_⟩
  · rw [State.setPC_ok.mpr ⟨h, rfl⟩]; rfl
  · rw [State.setPC_error.mpr ⟨h, rfl⟩]; rfl

theorem exec_djmp (x : Reg) (k : Addr) (s : State) :
    exec (.djmp x k) s = .next ((s.emitTrace (.dump s.fullDump)).orWarn
      ((s.emitTrace (.dump s.fullDump)).setPC (s.sx x k))) := rfl

/-- Settles O22: the jump is made in the state after the dump. -/
theorem djmpDumpsAndJumpsOrWarns : Obligations.DjmpDumpsAndJumpsOrWarns :=
  fun x k s => ⟨Laws.EncodeMatches.djmp x k, exec_jump (exec_djmp x k s)⟩

/-- `indexPC` is `setPC` of the wrapping sum with the PC. -/
theorem exec_jrel (x : Reg) (k : Addr) (s : State) :
    exec (.jrel x k) s = .next (s.orWarn (s.setPC (s.pc.setWidth 20 + s.sx x k))) := by
  rw [← aluAdd_eq_add]; rfl

/-- Settles O23: the unit's addition is that of `BitVec`. -/
theorem jrelJumpsOrWarns : Obligations.JrelJumpsOrWarns :=
  fun x k s => ⟨Laws.EncodeMatches.jrel x k, exec_jump (exec_jrel x k s)⟩

theorem exec_jmp (x : Reg) (k : Addr) (s : State) :
    exec (.jmp x k) s = .next (s.orWarn (s.setPC (s.sx x k))) := rfl

/-- Settles O24, by the check of `setPC`. -/
theorem jmpJumpsOrWarns : Obligations.JmpJumpsOrWarns :=
  fun x k s => ⟨Laws.EncodeMatches.jmp x k, exec_jump (exec_jmp x k s)⟩

/-! ### Branches -/

/-- An instruction that jumps if `p` holds and does nothing otherwise: a branch not taken checks nothing. -/
theorem exec_branch {i : Instr} {s : State} {w : Word} {p : Prop} [Decidable p]
    (hexec : exec i s = .next (if p then s.orWarn (s.setPC w) else s)) :
    (p → w.toInt < 256 → exec i s = .next { s with pc := w.setWidth 8 }) ∧
    (p → 256 ≤ w.toInt → exec i s = .next { s with warning := some (.illegalAddress w.toInt) }) ∧
    (¬p → exec i s = .next s) := by
  have hjump (hp : p) := exec_jump (hexec.trans (congrArg _ (if_pos hp)))
  exact ⟨fun hp => (hjump hp).1, fun hp => (hjump hp).2, fun hp => hexec.trans (congrArg _ (if_neg hp))⟩

theorem isZero_iff_eq_zero (a : Word) : isZero a = true ↔ a = 0 := beq_iff_eq

theorem exec_brz (r x : Reg) (k : Addr) (s : State) :
    exec (.brz r x k) s = .next (if s.regs.get r = 0 then s.orWarn (s.setPC (s.sx x k)) else s) :=
  congrArg Host.Outcome.next (if_congr (isZero_iff_eq_zero _) rfl rfl)

/-- Settles O25: a branch on `isZero`. -/
theorem brzBranchesOnZero : Obligations.BrzBranchesOnZero :=
  fun r x k s => ⟨Laws.EncodeMatches.brz r x k, exec_branch (exec_brz r x k s)⟩

/-- The sign test against the signed value: 0 counts as positive (40_alu.md R131). -/
theorem isPositive_iff_not_neg (a : Word) : isPositive a = true ↔ ¬a.toInt < 0 := by
  rw [isPositive, BitVec.msb_eq_toInt, Bool.not_eq_true', decide_eq_false_iff_not]

/-- The body tests for positive and jumps in the other case. -/
theorem exec_brn (r x : Reg) (k : Addr) (s : State) :
    exec (.brn r x k) s = .next (if (s.regs.get r).toInt < 0 then s.orWarn (s.setPC (s.sx x k)) else s) :=
  congrArg Host.Outcome.next ((if_congr (isPositive_iff_not_neg _) rfl rfl).trans (ite_not ..))

/-- Settles O26: a branch on the sign. -/
theorem brnBranchesOnNegative : Obligations.BrnBranchesOnNegative := by
  intro r x k s
  obtain ⟨htaken, hillegal, hnot⟩ := exec_branch (exec_brn r x k s)
  exact ⟨Laws.EncodeMatches.brn r x k, htaken, hillegal, fun h => hnot (not_lt.mpr h)⟩

theorem exec_brs (r x : Reg) (k : Addr) (s : State) :
    exec (.brs r x k) s = .next ((s.storePC r).orWarn ((s.storePC r).setPC (s.sx x k))) := rfl

/-- Settles O27: the jump is made in the state after the link, to the S(X) of the state before it. -/
theorem brsLinksAndJumpsOrWarns : Obligations.BrsLinksAndJumpsOrWarns :=
  fun r x k s => ⟨Laws.EncodeMatches.brs r x k, exec_jump (exec_brs r x k s)⟩

/-! ### NOP -/

theorem exec_nop (op : BitVec 4) (r x : Reg) (v : BitVec 4) (k : Addr) (s : State) :
    exec (.nop op r x v k) s = .next s := rfl

/-- Settles O28: a NOP is well formed exactly when its reserved bits are not 0. -/
theorem nopHasNoEffect : Obligations.NopHasNoEffect :=
  fun op r x v k s => ⟨fun hv => Laws.EncodeMatches.nop op r x v k (decide_eq_true hv), exec_nop op r x v k s⟩

end Sys2Proof.Machine
end

section
/-! PROOFS. The recoverable conditions (60_exceptions.md): which instruction raises which (O56), and the decode vectors of
95_test_vectors.md (O4). -/

namespace Sys2Proof.Machine

/-! ### The table of conditions -/

/-- The instructions with a memory operand, whose address is S(X) read as a signed integer (20_memory.md R63). -/
theorem State.operandAddress_eq_some {s : State} {i : Instr} {a : Int} (h : s.operandAddress i = some a) :
    ∃ r x k, (i = .ld r x k ∨ i = .st r x k ∨ i = .add r x k ∨ i = .sub r x k ∨ i = .mul r x k ∨ i = .div r x k ∨
      i = .bor r x k ∨ i = .band r x k ∨ i = .inDec x k ∨ i = .outDec x k) ∧ a = s.sxInt x k := by
  cases i with
  | ld r x k | st r x k | add r x k | sub r x k | mul r x k | div r x k | bor r x k | band r x k =>
    cases h; exact ⟨r, x, k, by simp, rfl⟩
  | inDec x k | outDec x k => cases h; exact ⟨.r0, x, k, by simp, rfl⟩
  | ldi | shl | shr | inChr | outChr | halt | djmp | jrel | jmp | brz | brn | brs | nop => cases h

/-- The Word a control transfer hands to `setPC` if it is taken: S(X), for JREL added to PC' (46_control.md R291 to
R298). -/
def State.transferTarget (s : State) : Instr → Option Word
  | .djmp x k | .jmp x k | .brz _ x k | .brn _ x k | .brs _ x k => some (s.sx x k)
  | .jrel x k => some (s.pc.setWidth 20 + s.sx x k)
  | .ld _ _ _ | .ldi _ _ _ | .st _ _ _ | .add _ _ _ | .sub _ _ _ | .mul _ _ _ | .div _ _ _ | .bor _ _ _
  | .band _ _ _ | .shl _ _ _ | .shr _ _ _ | .inDec _ _ | .inChr _ _ | .outDec _ _ | .outChr _ _ | .halt _ _
  | .nop _ _ _ _ _ => none

theorem State.transferTarget_eq_some {s : State} {i : Instr} {w : Word} (h : s.transferTarget i = some w) :
    ∃ r x k, ((i = .djmp x k ∨ i = .jmp x k ∨ i = .brz r x k ∨ i = .brn r x k ∨ i = .brs r x k) ∧ w = s.sx x k) ∨
      (i = .jrel x k ∧ w = s.pc.setWidth 20 + s.sx x k) := by
  cases i with
  | djmp x k | jmp x k => cases h; exact ⟨.r0, x, k, .inl ⟨by simp, rfl⟩⟩
  | brz r x k | brn r x k | brs r x k => cases h; exact ⟨r, x, k, .inl ⟨by simp, rfl⟩⟩
  | jrel x k => cases h; exact ⟨.r0, x, k, .inr ⟨rfl, rfl⟩⟩
  | ld | ldi | st | add | sub | mul | div | bor | band | shl | shr | inDec | inChr | outDec | outChr | halt | nop =>
    cases h

/-- The rows of 60_exceptions.md R320: the conditions the body of `i` can raise in the state `s`. -/
inductive Raises (i : Instr) (s : State) : Warning → Prop
  | operand {a : Int} (hi : s.operandAddress i = some a) (ha : ¬legalAddress a) : Raises i s (.illegalAddress a)
  | target {w : Word} (hi : s.transferTarget i = some w) (hw : 256 ≤ signed w) : Raises i s (.illegalAddress (signed w))
  | divisor {r x : Reg} {k : Addr} (hi : i = .div r x k) : Raises i s .divisionByZero
  | amount {r x : Reg} {k : Addr} (hi : i = .shl r x k ∨ i = .shr r x k) (hn : s.sxInt x k < 0 ∨ 19 < s.sxInt x k) :
      Raises i s (.invalidShiftAmount (s.sxInt x k))
  | token {x : Reg} {k : Addr} {tok : List Byte} (hi : i = .inDec x k) (htok : tokenValue tok = none) :
      Raises i s (.malformedNumber tok)

/-! ### What a body does to the condition -/

/-- The body of `i` that leads from `s` to `t` leaves the condition alone, or records one of its instruction's rows. -/
def KeepsOrRaises (i : Instr) (s t : State) : Prop :=
  t.warning = s.warning ∨ ∃ w, t.warning = some w ∧ Raises i s w

theorem aluDivideBy_error {a b : Word} {w : Warning} (h : aluDivideBy a b = .error w) : w = .divisionByZero := by
  by_cases hb : b = 0
  · rw [hb, aluDivideBy_zero] at h; cases h; rfl
  · rw [aluDivideBy_of_ne_zero a hb] at h; cases h

/-- Both shifts fail by the one check of the amount. -/
theorem aluShift_error {a : Word} {n : Int} {w : Warning}
    (h : aluShiftLeft a n = .error w ∨ aluShiftRight a n = .error w) :
    (n < 0 ∨ 19 < n) ∧ w = .invalidShiftAmount n := by
  unfold aluShiftLeft aluShiftRight at h
  split at h
  · rw [or_self] at h; cases h; exact ⟨‹_›, rfl⟩
  · obtain h | h := h <;> cases h

@[simp] theorem State.emitOut_warning (s : State) (e : OutEvent) : (s.emitOut e).warning = s.warning := by
  obtain ⟨_, h, -⟩ | ⟨_, -, h⟩ := s.emitOut_cases e <;> rw [h]

@[simp] theorem State.emitDump_warning (s : State) (v : Verbosity) : (s.emitDump v).warning = s.warning := by
  cases v <;> rfl

section
variable {i : Instr} {s : State} {r x : Reg} {k : Addr}

theorem KeepsOrRaises.load {g : Word → State} (hi : s.operandAddress i = some (s.sxInt x k))
    (hg : ∀ m, (g m).warning = s.warning) : KeepsOrRaises i s (s.orWarn ((s.readOperand x k).map g)) := by
  obtain ⟨-, h⟩ | ⟨ha, h⟩ := s.load_cases x k g <;> rw [h]
  exacts [.inl (hg _), .inr ⟨_, rfl, .operand hi ha⟩]

theorem KeepsOrRaises.store {v : Word} (hi : s.operandAddress i = some (s.sxInt x k)) :
    KeepsOrRaises i s (s.orWarn (s.writeOperand x k v)) := by
  obtain ⟨-, h⟩ | ⟨ha, h⟩ := s.store_cases x k v <;> rw [h]
  exacts [.inl rfl, .inr ⟨_, rfl, .operand hi ha⟩]

theorem KeepsOrRaises.arith {op : Word → Word → Except Warning Word} (hi : s.operandAddress i = some (s.sxInt x k))
    (hop : ∀ {a m w}, op a m = .error w → Raises i s w) : KeepsOrRaises i s (s.arith op r x k) := by
  obtain ⟨-, v, -, h⟩ | ⟨-, w, hw, h⟩ | ⟨ha, h⟩ := s.arith_cases op r x k <;> rw [h]
  exacts [.inl rfl, .inr ⟨w, rfl, hop hw⟩, .inr ⟨_, rfl, .operand hi ha⟩]

theorem KeepsOrRaises.shift {op : Word → Int → Except Warning Word} (hi : i = .shl r x k ∨ i = .shr r x k)
    (hop : ∀ {a n w}, op a n = .error w → (n < 0 ∨ 19 < n) ∧ w = .invalidShiftAmount n) :
    KeepsOrRaises i s (s.shift op r x k) := by
  obtain ⟨v, -, h⟩ | ⟨w, hw, h⟩ := s.shift_cases op r x k <;> rw [h]
  · exact .inl rfl
  · obtain ⟨hn, rfl⟩ := hop hw
    exact .inr ⟨_, rfl, .amount hi hn⟩

/-- The jump is made in a state `u` that the body has reached without a condition. -/
theorem KeepsOrRaises.jump {u : State} {w : Word} (hi : s.transferTarget i = some w) (hu : u.warning = s.warning) :
    KeepsOrRaises i s (u.orWarn (u.setPC w)) := by
  obtain ⟨-, h⟩ | ⟨hw, h⟩ := u.jump_cases w <;> rw [h]
  exacts [.inl hu, .inr ⟨_, rfl, .target hi hw⟩]

theorem execInDec_keepsOrRaises {t : State} (h : execInDec x k s = .next t) : KeepsOrRaises (.inDec x k) s t := by
  obtain ⟨_, _, -, ⟨_, -, rfl⟩ | ⟨_, -, rfl⟩ | ⟨tok, -, ⟨htok, rfl⟩ | ⟨_, -, ⟨-, rfl⟩ | ⟨ha, rfl⟩⟩⟩⟩ :=
    execInDec_cases h
  · exact .inl rfl
  · exact .inl rfl
  · exact .inr ⟨_, rfl, .token rfl htok⟩
  · exact .inl rfl
  · exact .inr ⟨_, rfl, .operand rfl ha⟩

end

theorem execInChr_warning {x : Reg} {k : Addr} {s t : State} (h : execInChr x k s = .next t) :
    t.warning = s.warning := by
  obtain ⟨-, rfl⟩ | ⟨_, -, rfl⟩ | ⟨_, _, -, rfl⟩ := execInChr_cases h <;> rfl

/-- Every body records a condition of its own rows or none. -/
theorem exec_keepsOrRaises {i : Instr} {s t : State} (h : exec i s = .next t) : KeepsOrRaises i s t := by
  cases i with
  | ld => cases h; exact .load rfl fun _ => rfl
  | st => cases h; exact .store rfl
  | add | sub | mul | bor | band => cases h; exact .arith rfl nofun
  | div => cases h; exact .arith rfl fun he => aluDivideBy_error he ▸ .divisor rfl
  | shl => cases h; exact .shift (.inl rfl) fun he => aluShift_error (.inl he)
  | shr => cases h; exact .shift (.inr rfl) fun he => aluShift_error (.inr he)
  | inDec => exact execInDec_keepsOrRaises h
  | inChr x k => exact .inl (execInChr_warning (k := k) h)
  | outDec => cases h; exact .load rfl fun _ => State.emitOut_warning ..
  | outChr => cases h; exact .inl (State.emitOut_warning ..)
  | halt v => cases h; exact .inl (s.emitDump_warning v)
  | djmp | jmp | brs => cases h; exact .jump rfl rfl
  | jrel => rw [exec_jrel] at h; cases h; exact .jump rfl rfl
  | brz =>
    cases h
    split
    exacts [.jump rfl rfl, .inl rfl]
  | brn =>
    cases h
    split
    exacts [.inl rfl, .jump rfl rfl]
  | ldi | nop => cases h; exact .inl rfl

/-- Settles O56: a condition that a body changes is of the instruction's rows. -/
theorem conditionsAreRaisedByTheirInstructions : Obligations.ConditionsAreRaisedByTheirInstructions := by
  intro i s t h hchanged
  obtain ⟨w, hw, hraises⟩ := (exec_keepsOrRaises h).resolve_left hchanged
  cases hraises with
  | operand hi ha =>
    rw [legalAddress_iff] at ha
    obtain ⟨r, x, k, hrow, rfl⟩ := State.operandAddress_eq_some hi
    exact ⟨r, x, k, .inl ⟨_, hw, .inl ⟨hrow, rfl, by omega⟩⟩⟩
  | target hi hlarge =>
    obtain ⟨r, x, k, ⟨hrow, rfl⟩ | ⟨hrow, rfl⟩⟩ := State.transferTarget_eq_some hi
    · exact ⟨r, x, k, .inl ⟨_, hw, .inr (.inl ⟨hrow, rfl, hlarge⟩)⟩⟩
    · exact ⟨r, x, k, .inl ⟨_, hw, .inr (.inr ⟨hrow, rfl, hlarge⟩)⟩⟩
  | @divisor r x k hi => exact ⟨r, x, k, .inr (.inl ⟨hw, hi⟩)⟩
  | @amount r x k hi hn => exact ⟨r, x, k, .inr (.inr (.inl ⟨_, hw, hi, rfl, hn⟩))⟩
  | @token x k tok hi htok => exact ⟨.r0, x, k, .inr (.inr (.inr ⟨tok, hw, hi, htok⟩))⟩

end Sys2Proof.Machine

namespace Sys2Proof

/-! ### The decode vectors -/

/-- A Word that a well-formed instruction encodes to decodes to that instruction. -/
theorem decode_eq_of_encode_eq {i : Instr} {w : Word} (hi : i.wellFormed = true) (h : encode i = w) : decode w = i :=
  h ▸ decodeEncodeWellFormed i hi

/-- Settles O4: each Word is the encoding of the instruction it is listed with. -/
theorem specWordsDecode : Obligations.SpecWordsDecode := by
  have hword {i : Instr} {w : Word} := decode_eq_of_encode_eq (i := i) (w := w)
  exact ⟨hword rfl rfl, hword rfl rfl, hword rfl rfl, hword rfl rfl, hword rfl rfl, hword rfl rfl, hword rfl rfl,
    hword rfl rfl, hword rfl rfl, hword rfl rfl, hword rfl rfl, hword rfl rfl, hword rfl rfl, hword rfl rfl⟩

end Sys2Proof
end
